-- ==== Sys2Proof/Word.lean ====
section
/-! DEFINITION. The widths of rule R5: bytes of the host's view (R38), 32-bit memory and
instruction words, 64-bit registers and addresses, 5-bit register indices (R12). -/

namespace Sys2Proof

/-- A byte of memory as a host sees it (R38). -/
abbrev Byte := BitVec 8

/-- The spec's word: 32 bits, one memory transaction or one instruction (R5, glossary). -/
abbrev Word := BitVec 32

/-- A 64-bit value: a general register, `pc`, or a byte address (R5). -/
abbrev Dword := BitVec 64

/-- A register index: a 5-bit field, so every index names a register (R12). -/
abbrev RegIdx := BitVec 5

end Sys2Proof
end

