-- ==== Sys2Proof/Syntax.lean ====
section
/-! DEFINITION. The instructions: one constructor per row of spec/opcode_table.json (R61), its
arguments the fields of the row (R52 to R57). Don't-care bits (R66) are no operands. `INVALID` has
no row and no constructor: it is the decoder's rejection (R64, R182). -/

namespace Sys2Proof

/-- `d` destination, `n` first source or base, `m` second source, `t` the register of a load, store
or compare-and-branch (R52); `sh` is `w[23:22]`, `imm12` is `w[21:10]` (R53), `imm16` is `w[20:5]`
(R54), `imm9` is `w[20:12]` (R55), `imm26` and `imm19` are branch offsets in words (R56), `immr` is
`w[21:16]` (R57). -/
inductive Instr where
  -- 41_arithmetic.md
  | addReg (d n m : RegIdx)
  | addRegFlags (d n m : RegIdx)
  | addImm (d n : RegIdx) (sh : BitVec 2) (imm12 : BitVec 12)
  | addImmFlags (d n : RegIdx) (sh : BitVec 2) (imm12 : BitVec 12)
  | subRegFlags (d n m : RegIdx)
  | cmpReg (n m : RegIdx)
  | subImmFlags (d n : RegIdx) (sh : BitVec 2) (imm12 : BitVec 12)
  | cmpImm (n : RegIdx) (sh : BitVec 2) (imm12 : BitVec 12)
  | addCarryFlags (d n m : RegIdx)
  | multiply (d n m : RegIdx)
  -- 42_logical_move_shift.md
  | andFlags (d n m : RegIdx)
  | eor (d n m : RegIdx)
  | orr (d n m : RegIdx)
  | moveWideImm (d : RegIdx) (imm16 : BitVec 16)
  | shiftLeft (d n : RegIdx) (immr : BitVec 6)
  | shiftRight (d n : RegIdx) (immr : BitVec 6)
  -- 43_load_store.md
  | storeWord (t n : RegIdx) (imm9 : BitVec 9)
  | loadWord (t n : RegIdx) (imm9 : BitVec 9)
  | storeByte (t n : RegIdx) (imm9 : BitVec 9)
  | loadByte (t n : RegIdx) (imm9 : BitVec 9)
  | storeHalf (t n : RegIdx) (imm9 : BitVec 9)
  | loadHalf (t n : RegIdx) (imm9 : BitVec 9)
  -- 44_control_transfer.md
  | branchUncond (imm26 : BitVec 26)
  | branchReg (n : RegIdx)
  | branchCondEq (imm19 : BitVec 19)
  | branchCondNe (imm19 : BitVec 19)
  | branchCondGt (imm19 : BitVec 19)
  | branchCondLt (imm19 : BitVec 19)
  | branchCondGe (imm19 : BitVec 19)
  | branchCondLe (imm19 : BitVec 19)
  | cmpBranchZero (t : RegIdx) (imm19 : BitVec 19)
  | cmpBranchNonzero (t : RegIdx) (imm19 : BitVec 19)
  -- 45_system.md
  | halt
  deriving DecidableEq, Repr

end Sys2Proof
end

