-- ==== Sys2Proof/WellFormed.lean ====
section
/-! DEFINITION. Which terms of `Instr` some word encodes. The field widths are in the types; the one
condition left is R62: under the primary bytes 0xEB and 0xF1 a destination field of 31 selects the
compare, so no word is a `SUB_REG_FLAGS` or `SUB_IMM_FLAGS` with destination 31. -/

namespace Sys2Proof

/-- The term is the reading of some instruction word (R62). -/
def Instr.wellFormed : Instr → Bool
  | .addReg _ _ _ => true
  | .addRegFlags _ _ _ => true
  | .addImm _ _ _ _ => true
  | .addImmFlags _ _ _ _ => true
  | .subRegFlags d _ _ => d != 31#5
  | .cmpReg _ _ => true
  | .subImmFlags d _ _ _ => d != 31#5
  | .cmpImm _ _ _ => true
  | .addCarryFlags _ _ _ => true
  | .multiply _ _ _ => true
  | .andFlags _ _ _ => true
  | .eor _ _ _ => true
  | .orr _ _ _ => true
  | .moveWideImm _ _ => true
  | .shiftLeft _ _ _ => true
  | .shiftRight _ _ _ => true
  | .storeWord _ _ _ => true
  | .loadWord _ _ _ => true
  | .storeByte _ _ _ => true
  | .loadByte _ _ _ => true
  | .storeHalf _ _ _ => true
  | .loadHalf _ _ _ => true
  | .branchUncond _ => true
  | .branchReg _ => true
  | .branchCondEq _ => true
  | .branchCondNe _ => true
  | .branchCondGt _ => true
  | .branchCondLt _ => true
  | .branchCondGe _ => true
  | .branchCondLe _ => true
  | .cmpBranchZero _ _ => true
  | .cmpBranchNonzero _ _ => true
  | .halt => true

end Sys2Proof
end

