-- ==== Sys2Proof/Decode.lean ====
section
/-! DEFINITION. The instruction decoder of 30_encoding.md: fields (R52 to R57), the tag (R61), the
four-stage classifier (R58), the instruction a word stands for, and its rejections by name; then the
canonical encoder (R68), the match/mask table (R63) and the don't-care masks (R66). -/

namespace Sys2Proof

/-- `w[lo + len - 1 : lo]`: the bit-field extractor of R80, on the widths it is used at (R81). -/
def slice (w : Word) (lo len : Nat) : BitVec len := w.extractLsb' lo len

/-- The primary byte `w[31:24]`. -/
def primary (w : Word) : BitVec 8 := slice w 24 8
/-- `d = w[4:0]`, the same bits as `t` (R52). -/
def fieldD (w : Word) : RegIdx := slice w 0 5
/-- `n = w[9:5]` (R52). -/
def fieldN (w : Word) : RegIdx := slice w 5 5
/-- `m = w[20:16]` (R52). -/
def fieldM (w : Word) : RegIdx := slice w 16 5
/-- `sh = w[23:22]` (R53), the same bits as the load/store selector of format `M`. -/
def fieldSh (w : Word) : BitVec 2 := slice w 22 2
/-- `imm12 = w[21:10]` (R53). -/
def fieldImm12 (w : Word) : BitVec 12 := slice w 10 12
/-- `imm16 = w[20:5]` (R54). -/
def fieldImm16 (w : Word) : BitVec 16 := slice w 5 16
/-- `imm9 = w[20:12]` (R55). -/
def fieldImm9 (w : Word) : BitVec 9 := slice w 12 9
/-- `imm26 = w[25:0]` (R56). -/
def fieldImm26 (w : Word) : BitVec 26 := slice w 0 26
/-- `imm19 = w[23:5]` (R56). -/
def fieldImm19 (w : Word) : BitVec 19 := slice w 5 19
/-- `immr = w[21:16]` (R57). -/
def fieldImmr (w : Word) : BitVec 6 := slice w 16 6
/-- `imms = w[15:10]` (R57). -/
def fieldImms (w : Word) : BitVec 6 := slice w 10 6
/-- `cond = w[3:0]` of format `C` (R58). -/
def fieldCond (w : Word) : BitVec 4 := slice w 0 4

/-- The closed set of opcode tags (R61): 33 executable ones and `INVALID`. -/
inductive Tag where
  | halt
  | branchUncond
  | branchCondEq
  | branchCondNe
  | branchCondGt
  | branchCondLt
  | branchCondGe
  | branchCondLe
  | addRegFlags
  | addImmFlags
  | cmpReg
  | subRegFlags
  | cmpImm
  | subImmFlags
  | andFlags
  | eor
  | orr
  | branchReg
  | shiftRight
  | shiftLeft
  | storeWord
  | loadWord
  | storeByte
  | loadByte
  | storeHalf
  | loadHalf
  | moveWideImm
  | addImm
  | addReg
  | multiply
  | cmpBranchZero
  | cmpBranchNonzero
  | addCarryFlags
  | invalid
  deriving DecidableEq, Repr

/-- Stage 3 of R58: the condition field; an unmapped value is `INVALID` (R60, R173). -/
def tagOfCond (cond : BitVec 4) : Tag :=
  if cond = 0x0#4 then .branchCondEq
  else if cond = 0x1#4 then .branchCondNe
  else if cond = 0xA#4 then .branchCondGe
  else if cond = 0xB#4 then .branchCondLt
  else if cond = 0xC#4 then .branchCondGt
  else if cond = 0xD#4 then .branchCondLe
  else .invalid

/-- The load/store selector `w[23:22]` of R58: 0 store, 1 load, 2 and 3 `INVALID` (R60). -/
def tagOfOpc (opc : BitVec 2) (store load : Tag) : Tag :=
  if opc = 0#2 then store else if opc = 1#2 then load else .invalid

/-- Stage 4 of R58: the primary byte, with its secondary tests (R62). -/
def tagOfPrimary (w : Word) : Tag :=
  let p := primary w
  if p = 0xAB#8 then .addRegFlags
  else if p = 0xB1#8 then .addImmFlags
  else if p = 0xEB#8 then (if fieldD w = 0x1F#5 then .cmpReg else .subRegFlags)
  else if p = 0xF1#8 then (if fieldD w = 0x1F#5 then .cmpImm else .subImmFlags)
  else if p = 0xEA#8 then .andFlags
  else if p = 0xCA#8 then .eor
  else if p = 0xAA#8 then .orr
  else if p = 0xD6#8 then .branchReg
  else if p = 0xD3#8 then (if fieldImms w = 0x3F#6 then .shiftRight else .shiftLeft)
  else if p = 0xF8#8 then tagOfOpc (fieldSh w) .storeWord .loadWord
  else if p = 0x38#8 then tagOfOpc (fieldSh w) .storeByte .loadByte
  else if p = 0x78#8 then tagOfOpc (fieldSh w) .storeHalf .loadHalf
  else if p = 0xD2#8 then .moveWideImm
  else if p = 0x91#8 then .addImm
  else if p = 0x8B#8 then .addReg
  else if p = 0x9B#8 then .multiply
  else if p = 0xB4#8 then .cmpBranchZero
  else if p = 0xB5#8 then .cmpBranchNonzero
  else if p = 0xBA#8 then .addCarryFlags
  else .invalid

/-- `decode(w)` of R58 as the spec has it: the tag of a word, first match wins. -/
def decodeTag (w : Word) : Tag :=
  if slice w 21 11 = 0x6A2#11 ∧ fieldD w = 0#5 then .halt
  else if slice w 26 6 = 0b000101#6 then .branchUncond
  else if primary w = 0x54#8 then tagOfCond (fieldCond w)
  else tagOfPrimary w

/-- Why a word or a string of bytes is no instruction. -/
inductive DecodeError where
  /-- The word's tag is `INVALID` (R64). -/
  | invalid (w : Word)
  /-- Fewer than the four bytes of an instruction word were given (R50). -/
  | truncated (n : Nat)
  deriving DecidableEq, Repr

/-- The instruction of a tag, its fields read from the same word (R9; DEDUCED, safe, log entry 15). -/
def fieldsOf (tag : Tag) (w : Word) : Except DecodeError Instr :=
  match tag with
  | .halt => .ok .halt
  | .branchUncond => .ok (.branchUncond (fieldImm26 w))
  | .branchCondEq => .ok (.branchCondEq (fieldImm19 w))
  | .branchCondNe => .ok (.branchCondNe (fieldImm19 w))
  | .branchCondGt => .ok (.branchCondGt (fieldImm19 w))
  | .branchCondLt => .ok (.branchCondLt (fieldImm19 w))
  | .branchCondGe => .ok (.branchCondGe (fieldImm19 w))
  | .branchCondLe => .ok (.branchCondLe (fieldImm19 w))
  | .addRegFlags => .ok (.addRegFlags (fieldD w) (fieldN w) (fieldM w))
  | .addImmFlags => .ok (.addImmFlags (fieldD w) (fieldN w) (fieldSh w) (fieldImm12 w))
  | .cmpReg => .ok (.cmpReg (fieldN w) (fieldM w))
  | .subRegFlags => .ok (.subRegFlags (fieldD w) (fieldN w) (fieldM w))
  | .cmpImm => .ok (.cmpImm (fieldN w) (fieldSh w) (fieldImm12 w))
  | .subImmFlags => .ok (.subImmFlags (fieldD w) (fieldN w) (fieldSh w) (fieldImm12 w))
  | .andFlags => .ok (.andFlags (fieldD w) (fieldN w) (fieldM w))
  | .eor => .ok (.eor (fieldD w) (fieldN w) (fieldM w))
  | .orr => .ok (.orr (fieldD w) (fieldN w) (fieldM w))
  | .branchReg => .ok (.branchReg (fieldN w))
  | .shiftRight => .ok (.shiftRight (fieldD w) (fieldN w) (fieldImmr w))
  | .shiftLeft => .ok (.shiftLeft (fieldD w) (fieldN w) (fieldImmr w))
  | .storeWord => .ok (.storeWord (fieldD w) (fieldN w) (fieldImm9 w))
  | .loadWord => .ok (.loadWord (fieldD w) (fieldN w) (fieldImm9 w))
  | .storeByte => .ok (.storeByte (fieldD w) (fieldN w) (fieldImm9 w))
  | .loadByte => .ok (.loadByte (fieldD w) (fieldN w) (fieldImm9 w))
  | .storeHalf => .ok (.storeHalf (fieldD w) (fieldN w) (fieldImm9 w))
  | .loadHalf => .ok (.loadHalf (fieldD w) (fieldN w) (fieldImm9 w))
  | .moveWideImm => .ok (.moveWideImm (fieldD w) (fieldImm16 w))
  | .addImm => .ok (.addImm (fieldD w) (fieldN w) (fieldSh w) (fieldImm12 w))
  | .addReg => .ok (.addReg (fieldD w) (fieldN w) (fieldM w))
  | .multiply => .ok (.multiply (fieldD w) (fieldN w) (fieldM w))
  | .cmpBranchZero => .ok (.cmpBranchZero (fieldD w) (fieldImm19 w))
  | .cmpBranchNonzero => .ok (.cmpBranchNonzero (fieldD w) (fieldImm19 w))
  | .addCarryFlags => .ok (.addCarryFlags (fieldD w) (fieldN w) (fieldM w))
  | .invalid => .error (.invalid w)

/-- The instruction a word stands for, or its rejection as `INVALID` (R58, R59). -/
def decode (w : Word) : Except DecodeError Instr := fieldsOf (decodeTag w) w

/-- The tag an instruction is executed under (R61). -/
def Instr.tag : Instr → Tag
  | .halt => .halt
  | .branchUncond _ => .branchUncond
  | .branchCondEq _ => .branchCondEq
  | .branchCondNe _ => .branchCondNe
  | .branchCondGt _ => .branchCondGt
  | .branchCondLt _ => .branchCondLt
  | .branchCondGe _ => .branchCondGe
  | .branchCondLe _ => .branchCondLe
  | .addRegFlags _ _ _ => .addRegFlags
  | .addImmFlags _ _ _ _ => .addImmFlags
  | .cmpReg _ _ => .cmpReg
  | .subRegFlags _ _ _ => .subRegFlags
  | .cmpImm _ _ _ => .cmpImm
  | .subImmFlags _ _ _ _ => .subImmFlags
  | .andFlags _ _ _ => .andFlags
  | .eor _ _ _ => .eor
  | .orr _ _ _ => .orr
  | .branchReg _ => .branchReg
  | .shiftRight _ _ _ => .shiftRight
  | .shiftLeft _ _ _ => .shiftLeft
  | .storeWord _ _ _ => .storeWord
  | .loadWord _ _ _ => .loadWord
  | .storeByte _ _ _ => .storeByte
  | .loadByte _ _ _ => .loadByte
  | .storeHalf _ _ _ => .storeHalf
  | .loadHalf _ _ _ => .loadHalf
  | .moveWideImm _ _ => .moveWideImm
  | .addImm _ _ _ _ => .addImm
  | .addReg _ _ _ => .addReg
  | .multiply _ _ _ => .multiply
  | .cmpBranchZero _ _ => .cmpBranchZero
  | .cmpBranchNonzero _ _ => .cmpBranchNonzero
  | .addCarryFlags _ _ _ => .addCarryFlags

/-- Four bytes, lowest address first, as one word: little-endian (R38, log entry 9). -/
def wordOfBytes (b0 b1 b2 b3 : Byte) : Word := b3 ++ b2 ++ b1 ++ b0

/-- Byte `k` (0 to 3) of a word, in the order of R38. -/
def byteOfWord (w : Word) (k : Nat) : Byte := w.extractLsb' (8 * k) 8

/-- The decoder on any bytes: the first instruction and the bytes after it (R50). -/
def decodeBytes : List Byte → Except DecodeError (Instr × List Byte)
  | b0 :: b1 :: b2 :: b3 :: rest =>
    match decode (wordOfBytes b0 b1 b2 b3) with
    | .ok i => .ok (i, rest)
    | .error e => .error e
  | short => .error (.truncated short.length)

/-- The instruction the decoder reads from the word `w` of `nbits` bits, the bits above zero. -/
def decodeTableWord (nbits w : Nat) : Option Instr :=
  let word : Word := BitVec.ofNat 32 (w % 2 ^ nbits)
  match decodeBytes [byteOfWord word 0, byteOfWord word 1, byteOfWord word 2, byteOfWord word 3] with
  | .ok (i, _) => some i
  | .error _ => none

/-- Format `R` (R51), don't-care bits 0 (R68). -/
def encodeR (p : BitVec 8) (d n m : RegIdx) : Word := p ++ 0#3 ++ m ++ 0#6 ++ n ++ d
/-- Format `I` (R51). -/
def encodeI (p : BitVec 8) (d n : RegIdx) (sh : BitVec 2) (imm12 : BitVec 12) : Word :=
  p ++ sh ++ imm12 ++ n ++ d
/-- Format `W` (R51). -/
def encodeW (d : RegIdx) (imm16 : BitVec 16) : Word := 0xD2#8 ++ 0#3 ++ imm16 ++ d
/-- Format `S` (R51, R57). -/
def encodeS (imms : BitVec 6) (d n : RegIdx) (immr : BitVec 6) : Word :=
  0xD3#8 ++ 0#2 ++ immr ++ imms ++ n ++ d
/-- Format `M` (R51). -/
def encodeM (p : BitVec 8) (opc : BitVec 2) (t n : RegIdx) (imm9 : BitVec 9) : Word :=
  p ++ opc ++ 0#1 ++ imm9 ++ 0#2 ++ n ++ t
/-- Format `B` (R51). -/
def encodeB (imm26 : BitVec 26) : Word := 0b000101#6 ++ imm26
/-- Format `C` (R51). -/
def encodeC (cond : BitVec 4) (imm19 : BitVec 19) : Word := 0x54#8 ++ imm19 ++ 0#1 ++ cond
/-- Format `Z` (R51). -/
def encodeZ (p : BitVec 8) (t : RegIdx) (imm19 : BitVec 19) : Word := p ++ imm19 ++ t
/-- Format `J` (R51). -/
def encodeJ (n : RegIdx) : Word := 0xD6#8 ++ 0#14 ++ n ++ 0#5
/-- Format `H` (R51). -/
def encodeH : Word := 0x6A2#11 ++ 0#16 ++ 0#5

/-- The canonical word of an instruction (R68). -/
def encode : Instr → Word
  | .halt => encodeH
  | .branchUncond imm26 => encodeB imm26
  | .branchCondEq imm19 => encodeC 0x0#4 imm19
  | .branchCondNe imm19 => encodeC 0x1#4 imm19
  | .branchCondGt imm19 => encodeC 0xC#4 imm19
  | .branchCondLt imm19 => encodeC 0xB#4 imm19
  | .branchCondGe imm19 => encodeC 0xA#4 imm19
  | .branchCondLe imm19 => encodeC 0xD#4 imm19
  | .addRegFlags d n m => encodeR 0xAB#8 d n m
  | .addImmFlags d n sh imm12 => encodeI 0xB1#8 d n sh imm12
  | .cmpReg n m => encodeR 0xEB#8 31#5 n m
  | .subRegFlags d n m => encodeR 0xEB#8 d n m
  | .cmpImm n sh imm12 => encodeI 0xF1#8 31#5 n sh imm12
  | .subImmFlags d n sh imm12 => encodeI 0xF1#8 d n sh imm12
  | .andFlags d n m => encodeR 0xEA#8 d n m
  | .eor d n m => encodeR 0xCA#8 d n m
  | .orr d n m => encodeR 0xAA#8 d n m
  | .branchReg n => encodeJ n
  | .shiftRight d n immr => encodeS 0x3F#6 d n immr
  | .shiftLeft d n immr => encodeS 0#6 d n immr
  | .storeWord t n imm9 => encodeM 0xF8#8 0#2 t n imm9
  | .loadWord t n imm9 => encodeM 0xF8#8 1#2 t n imm9
  | .storeByte t n imm9 => encodeM 0x38#8 0#2 t n imm9
  | .loadByte t n imm9 => encodeM 0x38#8 1#2 t n imm9
  | .storeHalf t n imm9 => encodeM 0x78#8 0#2 t n imm9
  | .loadHalf t n imm9 => encodeM 0x78#8 1#2 t n imm9
  | .moveWideImm d imm16 => encodeW d imm16
  | .addImm d n sh imm12 => encodeI 0x91#8 d n sh imm12
  | .addReg d n m => encodeR 0x8B#8 d n m
  | .multiply d n m => encodeR 0x9B#8 d n m
  | .cmpBranchZero t imm19 => encodeZ 0xB4#8 t imm19
  | .cmpBranchNonzero t imm19 => encodeZ 0xB5#8 t imm19
  | .addCarryFlags d n m => encodeR 0xBA#8 d n m

/-- One row of the match/mask table of R63. -/
structure OpcodeRow where
  tag : Tag
  mask : Word
  pattern : Word
  unlessPattern : Option (Word × Word)
  deriving DecidableEq, Repr

/-- `w & mask = match`, and not the `unless` pattern where the row has one (R63). -/
def rowSelects (row : OpcodeRow) (w : Word) : Bool :=
  w &&& row.mask == row.pattern &&
    match row.unlessPattern with
    | none => true
    | some (mask, pattern) => w &&& mask != pattern

/-- The table of R63: tag, mask, match, unless. -/
def opcodeTable : List OpcodeRow :=
  [⟨.halt, 0xFFE0001F#32, 0xD4400000#32, none⟩,
   ⟨.branchUncond, 0xFC000000#32, 0x14000000#32, none⟩,
   ⟨.branchCondEq, 0xFF00000F#32, 0x54000000#32, none⟩,
   ⟨.branchCondNe, 0xFF00000F#32, 0x54000001#32, none⟩,
   ⟨.branchCondGt, 0xFF00000F#32, 0x5400000C#32, none⟩,
   ⟨.branchCondLt, 0xFF00000F#32, 0x5400000B#32, none⟩,
   ⟨.branchCondGe, 0xFF00000F#32, 0x5400000A#32, none⟩,
   ⟨.branchCondLe, 0xFF00000F#32, 0x5400000D#32, none⟩] ++
  [⟨.addRegFlags, 0xFF000000#32, 0xAB000000#32, none⟩,
   ⟨.addImmFlags, 0xFF000000#32, 0xB1000000#32, none⟩,
   ⟨.cmpReg, 0xFF00001F#32, 0xEB00001F#32, none⟩,
   ⟨.subRegFlags, 0xFF000000#32, 0xEB000000#32, some (0x0000001F#32, 0x0000001F#32)⟩,
   ⟨.cmpImm, 0xFF00001F#32, 0xF100001F#32, none⟩,
   ⟨.subImmFlags, 0xFF000000#32, 0xF1000000#32, some (0x0000001F#32, 0x0000001F#32)⟩,
   ⟨.andFlags, 0xFF000000#32, 0xEA000000#32, none⟩,
   ⟨.eor, 0xFF000000#32, 0xCA000000#32, none⟩] ++
  [⟨.orr, 0xFF000000#32, 0xAA000000#32, none⟩,
   ⟨.branchReg, 0xFF000000#32, 0xD6000000#32, none⟩,
   ⟨.shiftRight, 0xFF00FC00#32, 0xD300FC00#32, none⟩,
   ⟨.shiftLeft, 0xFF000000#32, 0xD3000000#32, some (0x0000FC00#32, 0x0000FC00#32)⟩,
   ⟨.storeWord, 0xFFC00000#32, 0xF8000000#32, none⟩,
   ⟨.loadWord, 0xFFC00000#32, 0xF8400000#32, none⟩,
   ⟨.storeByte, 0xFFC00000#32, 0x38000000#32, none⟩,
   ⟨.loadByte, 0xFFC00000#32, 0x38400000#32, none⟩] ++
  [⟨.storeHalf, 0xFFC00000#32, 0x78000000#32, none⟩,
   ⟨.loadHalf, 0xFFC00000#32, 0x78400000#32, none⟩,
   ⟨.moveWideImm, 0xFF000000#32, 0xD2000000#32, none⟩,
   ⟨.addImm, 0xFF000000#32, 0x91000000#32, none⟩,
   ⟨.addReg, 0xFF000000#32, 0x8B000000#32, none⟩,
   ⟨.multiply, 0xFF000000#32, 0x9B000000#32, none⟩,
   ⟨.cmpBranchZero, 0xFF000000#32, 0xB4000000#32, none⟩,
   ⟨.cmpBranchNonzero, 0xFF000000#32, 0xB5000000#32, none⟩,
   ⟨.addCarryFlags, 0xFF000000#32, 0xBA000000#32, none⟩]

/-- The bits of a word that the decoder or the tag's execution reads; the others are the don't-care
bits of R66. For `SHIFT_LEFT`, `imms` counts as read: its test against 0x3F selects the tag. -/
def careMask : Tag → Word
  | .halt => 0xFFE0001F#32
  | .branchUncond => 0xFFFFFFFF#32
  | .branchCondEq => 0xFFFFFFEF#32
  | .branchCondNe => 0xFFFFFFEF#32
  | .branchCondGt => 0xFFFFFFEF#32
  | .branchCondLt => 0xFFFFFFEF#32
  | .branchCondGe => 0xFFFFFFEF#32
  | .branchCondLe => 0xFFFFFFEF#32
  | .addRegFlags => 0xFF1F03FF#32
  | .addImmFlags => 0xFFFFFFFF#32
  | .cmpReg => 0xFF1F03FF#32
  | .subRegFlags => 0xFF1F03FF#32
  | .cmpImm => 0xFFFFFFFF#32
  | .subImmFlags => 0xFFFFFFFF#32
  | .andFlags => 0xFF1F03FF#32
  | .eor => 0xFF1F03FF#32
  | .orr => 0xFF1F03FF#32
  | .branchReg => 0xFF0003E0#32
  | .shiftRight => 0xFF3FFFFF#32
  | .shiftLeft => 0xFF3FFFFF#32
  | .storeWord => 0xFFDFF3FF#32
  | .loadWord => 0xFFDFF3FF#32
  | .storeByte => 0xFFDFF3FF#32
  | .loadByte => 0xFFDFF3FF#32
  | .storeHalf => 0xFFDFF3FF#32
  | .loadHalf => 0xFFDFF3FF#32
  | .moveWideImm => 0xFF1FFFFF#32
  | .addImm => 0xFFFFFFFF#32
  | .addReg => 0xFF1F03FF#32
  | .multiply => 0xFF1F03FF#32
  | .cmpBranchZero => 0xFFFFFFFF#32
  | .cmpBranchNonzero => 0xFFFFFFFF#32
  | .addCarryFlags => 0xFF1F03FF#32
  | .invalid => 0xFFFFFFFF#32

end Sys2Proof
end

