-- ==== Sys2Proof/Config.lean ====
section
/-! DEFINITION. The parameters of rule R6, as plain data that the driver and the memory
collaborator fix before a run; `State.params` carries them, so that a statement about every state
is a statement about every value of them (log entries 1 to 4). -/

namespace Sys2Proof

/-- `INVALID_POLICY` of R6: what the driver does after an `INVALID` word. -/
inductive InvalidPolicy where
  | advance
  | stop
  deriving DecidableEq, Repr

/-- A range of byte addresses, both ends included: a piece of `MEM_DOMAIN`. -/
structure AddrRange where
  first : Dword
  last : Dword
  deriving DecidableEq, Repr

/-- The parameters of R6 but for `MEM_INIT`, which is an argument of `State.resetWith`.
`resetPcWord` is `RESET_PC / 4`: the type excludes a misaligned `RESET_PC` (U2). -/
structure Params where
  resetPcWord : BitVec 62
  memDomain : List AddrRange
  invalidPolicy : InvalidPolicy
  deriving DecidableEq, Repr

/-- `RESET_PC`, a multiple of 4 (R6, R19). -/
def Params.resetPc (p : Params) : Dword := p.resetPcWord ++ 0#2

/-- The parameters that `State.reset` takes: the defaults of R6 where it has one, and
`RESET_PC = 0x1000`, the value of the programs of 95_test_vectors.md
(DESIGN CHOICE, unsafe, log entry 1; the rest log entries 3 and 4). -/
def Params.default : Params where
  resetPcWord := 0x400#62
  memDomain := [⟨0x0000000000000000#64, 0xFFFFFFFFFFFFFFFF#64⟩]
  invalidPolicy := .advance

/-- What a byte reads as that neither `MEM_INIT` nor a store has listed
(DESIGN CHOICE, unsafe, log entry 2). -/
def Config.unlistedByte : Byte := 0#8

end Sys2Proof
end

