-- ==== Sys2Proof/Machine/State.lean ====
section
/-! DEFINITION. The machine's state as plain data: the architectural state of 10_state.md, the memory
behind the port (R33), and the model's own two fields, the fault mark of R183 and the parameters of
R6; the reasons a step can stop; the state after reset (R210). -/

namespace Sys2Proof.Machine

open Sys2Proof

/-- The four condition flags (R23). -/
structure Flags where
  n : Bool
  z : Bool
  c : Bool
  v : Bool
  deriving DecidableEq, Repr

/-- The memory behind the port (R33), as the bytes of a host's view (R38): pairs of an address and a
byte, in the canonical form `Memory.wf`. -/
abbrev Memory := List Host.Cell

/-- Everything the spec gives the machine, and what the model adds. -/
structure State where
  /-- `x[0]` to `x[31]` (R10). -/
  x : Vector Dword 32
  /-- The address of the instruction the next step fetches (R15). -/
  pc : Dword
  /-- `N`, `Z`, `C`, `V` (R23). -/
  flags : Flags
  /-- The run flag (R27). -/
  run : Bool
  /-- The memory (R33). -/
  mem : Memory
  /-- MODEL's own: an `INVALID` word has been executed since reset, the mark of R183
  (DESIGN CHOICE, safe, log entry 5). -/
  invalidSeen : Bool
  /-- MODEL's own: the parameters of R6, which no step changes (log entry 4). -/
  params : Params
  deriving DecidableEq, Repr

/-- The stops of a step. None is an architectural exception (R191, R198). -/
inductive Fault where
  /-- `Misaligned(addr)` of R194: an access at an address that is no multiple of 4, raised by fetch
  and by the six load/store meanings before any effect. Safe: the source calls it undefined. -/
  | misaligned (addr : Dword)
  /-- The stuck state of R35 and R195: an aligned access outside `MEM_DOMAIN`, raised by fetch and by
  the load/store meanings. Safe: the step has no transition. -/
  | unbacked (addr : Dword)
  /-- R28: `run = 0`, so no step exists; raised by `step`. Safe: the halted state is final. -/
  | halted
  /-- R182 under `INVALID_POLICY = stop`: the driver steps no further; raised by `step`. Safe. -/
  | stoppedAfterInvalid
  deriving DecidableEq, Repr

/-- The refusals of `exec`. -/
inductive Refusal where
  /-- An instruction without a meaning, rejected by name in `exec`'s arm; no arm does so. Safe. -/
  | notModelled (mnemonic : String)
  deriving DecidableEq, Repr

/-- The answer of a meaning and of a step. -/
abbrev Result := Host.Outcome State Fault Refusal

/-- The reset state of R210 for the parameters `p` and the memory contents `m` (`MEM_INIT`): registers
and flags 0, `pc = RESET_PC`, `run = 1`; the mark starts clear (log entry 5). -/
def State.resetWith (p : Params) (m : Memory) : State where
  x := Vector.replicate 32 0#64
  pc := p.resetPc
  flags := ⟨false, false, false, false⟩
  run := true
  mem := m
  invalidSeen := false
  params := p

/-- The machine right after reset, with the model's values for the open parameters (DESIGN CHOICE,
unsafe, log entries 1 to 4) and nothing loaded (log entry 12). -/
def State.reset : State := State.resetWith Params.default []

end Sys2Proof.Machine
end

