-- ==== Sys2Proof/Machine/Flags.lean ====
section
/-! DEFINITION. The ALU's flag generation: `AddWithCarry` (R82), the flags of `AND_FLAGS` (R120), and
the six branch predicates (R166). -/

namespace Sys2Proof.Machine

open Sys2Proof

/-- `AddWithCarry(x, y, cin)` of R82: the sum modulo 2^64, and N, Z, the 65th bit, and signed overflow
on the operands as given (R83, R84). -/
def addWithCarry (x y : Dword) (cin : Bool) : Dword × Flags :=
  let usum := x.toNat + y.toNat + cin.toNat
  let result := BitVec.ofNat 64 usum
  (result,
    { n := result.msb
      z := result == 0#64
      c := decide (2 ^ 64 ≤ usum)
      v := x.msb == y.msb && result.msb != x.msb })

/-- Subtraction through the same adder: `AddWithCarry(x, ~y, 1)` (R85). -/
def subWithFlags (x y : Dword) : Dword × Flags := addWithCarry x (~~~y) true

/-- The flags after `AND_FLAGS`: N and Z of the result, C and V as they were (R120). -/
def logicFlags (old : Flags) (r : Dword) : Flags := { old with n := r.msb, z := r == 0#64 }

/-- `EQ` (R166). -/
def condEq (f : Flags) : Bool := f.z
/-- `NE` (R166). -/
def condNe (f : Flags) : Bool := !f.z
/-- `GE`: N alone (R166). -/
def condGe (f : Flags) : Bool := !f.n
/-- `LT`: N alone (R166). -/
def condLt (f : Flags) : Bool := f.n
/-- `GT` (R166). -/
def condGt (f : Flags) : Bool := !f.n && !f.z
/-- `LE` (R166). -/
def condLe (f : Flags) : Bool := f.n || f.z

end Sys2Proof.Machine
end

