-- ==== Sys2Proof/Machine/Memory.lean ====
section
/-! DEFINITION. The memory as `MemRead` and `MemWrite` see it (R31 to R33): bytes under their
addresses, words built from four bytes in the order of R38. Alignment and domain are checked in
Ops.lean. -/

namespace Sys2Proof.Machine

open Sys2Proof

/-- The canonical form: addresses strictly rising and below 2^64, no entry equal to what an unlisted
address reads as. -/
abbrev Memory.wf (m : Memory) : Prop :=
  m.Pairwise (fun e f => e.1 < f.1) ∧ ∀ e ∈ m, e.2 ≠ Config.unlistedByte ∧ e.1 < 2 ^ 64

/-- The byte at an address; an unlisted one reads as `Config.unlistedByte` (log entry 2). -/
def readByte : Memory → Nat → Byte
  | [], _ => Config.unlistedByte
  | (k, b) :: m, a => if k = a then b else readByte m a

/-- The memory with no entry for `a`. -/
def dropCell (m : Memory) (a : Nat) : Memory := m.filter (fun e => e.1 != a)

/-- The memory with an entry for `a` put before the first higher address. -/
def insertCell (a : Nat) (v : Byte) : Memory → Memory
  | [] => [(a, v)]
  | (k, b) :: m => if a < k then (a, v) :: (k, b) :: m else (k, b) :: insertCell a v m

/-- The memory with the byte `v` at `a`, in canonical form if it was. -/
def writeByte (m : Memory) (a : Nat) (v : Byte) : Memory :=
  if v = Config.unlistedByte then dropCell m a else insertCell a v (dropCell m a)

/-- The address of byte `k` of the word at `addr`. -/
def byteAddr (addr : Dword) (k : Nat) : Nat := (addr + BitVec.ofNat 64 k).toNat

/-- `Mem(addr)`: the 32-bit word at `addr`, least significant byte at the lowest address (R33, R38;
log entry 9). -/
def readWord (m : Memory) (addr : Dword) : Word :=
  readByte m (byteAddr addr 3) ++ readByte m (byteAddr addr 2) ++ readByte m (byteAddr addr 1) ++
    readByte m (byteAddr addr 0)

/-- `Mem[addr := v]`: the whole 32-bit word at `addr` replaced (R32, R33, R38). -/
def writeWord (m : Memory) (addr : Dword) (v : Word) : Memory :=
  let m0 := writeByte m (byteAddr addr 0) (v.extractLsb' 0 8)
  let m1 := writeByte m0 (byteAddr addr 1) (v.extractLsb' 8 8)
  let m2 := writeByte m1 (byteAddr addr 2) (v.extractLsb' 16 8)
  writeByte m2 (byteAddr addr 3) (v.extractLsb' 24 8)

end Sys2Proof.Machine
end

