-- ==== Sys2Proof/Machine/Operands.lean ====
section
/-! DEFINITION. Reading operands: registers (R11, R20), immediates (R53, R54), the effective address
(R55, R140), branch offsets through the sign-extension unit (R56, R86), shift amounts (R57). -/

namespace Sys2Proof.Machine

open Sys2Proof

/-- `x[i]`, any of the 32 ordinary registers; 31 is no exception (R10, R11). -/
def readReg (s : State) (i : RegIdx) : Dword := s.x[i.toNat]'i.isLt

/-- `imm` of format `I`: `imm12`, shifted left by 12 exactly when `sh = 1` (R53). -/
def immOperand (sh : BitVec 2) (imm12 : BitVec 12) : Dword :=
  if sh = 1#2 then imm12.setWidth 64 <<< 12 else imm12.setWidth 64

/-- `addr = (x[n] + zext_64(imm9)) mod 2^64`: the offset is unsigned and unscaled (R55, R140). -/
def effAddr (s : State) (n : RegIdx) (imm9 : BitVec 9) : Dword := readReg s n + imm9.setWidth 64

/-- `sext_N(v)`: the low `N` bits of `v` as a two's-complement number, in 64 bits (R86; total in `N`,
log entry 10). -/
def sext (N : Nat) (v : Dword) : Dword := (v.setWidth N).signExtend 64

/-- `off26 = sext_28(4 * imm26)` (R56, R160). -/
def offset26 (imm26 : BitVec 26) : Dword := sext 28 (imm26.setWidth 64 <<< 2)

/-- `off19 = sext_21(4 * imm19)` (R56, R160). -/
def offset19 (imm19 : BitVec 19) : Dword := sext 21 (imm19.setWidth 64 <<< 2)

/-- `amt = 64 - immr` of `SHIFT_LEFT`, 1 to 64 (R57). -/
def leftAmount (immr : BitVec 6) : Nat := 64 - immr.toNat

/-- `amt = immr` of `SHIFT_RIGHT`, 0 to 63 (R57). -/
def rightAmount (immr : BitVec 6) : Nat := immr.toNat

end Sys2Proof.Machine
end

