-- ==== Sys2Proof/Machine/Ops.lean ====
section
/-! DEFINITION. The shared operations: writing registers, flags, `pc` and `run`; the memory port with
its checks (R31, R32, R34, R35, R194); what a step checks first (R28, R182); the fetch (R88); the
`INVALID` event, the only event the core reports (R182, R190); the reset input (R210, R211). There is
no trap entry and no return from one (R198, R199). -/

namespace Sys2Proof.Machine

open Sys2Proof

/-- `x[d] <- v` (R10, R11). -/
def setReg (s : State) (d : RegIdx) (v : Dword) : State := { s with x := s.x.set d.toNat v d.isLt }

/-- `NZCV <- f`. -/
def setFlags (s : State) (f : Flags) : State := { s with flags := f }

/-- `pc <- pc + 4`, modulo 2^64 (R16, R17, R90). -/
def advance (s : State) : State := { s with pc := s.pc + 4#64 }

/-- `pc <- target`, unmasked and unchecked (R18). -/
def jump (s : State) (target : Dword) : State := { s with pc := target }

/-- `run <- 0` (R27). -/
def clearRun (s : State) : State := { s with run := false }

/-- The whole-word update of R32 on the state's memory. -/
def setWord (s : State) (addr : Dword) (v : Word) : State := { s with mem := writeWord s.mem addr v }

/-- The mark of R183, recorded and not cleared by any step (log entry 5). -/
def markInvalid (s : State) : State := { s with invalidSeen := true }

/-- An instruction that writes one register and advances (R90). -/
def completeReg (s : State) (d : RegIdx) (v : Dword) : Result := .next (advance (setReg s d v))

/-- An instruction that writes the flags and advances. -/
def completeFlags (s : State) (f : Flags) : Result := .next (advance (setFlags s f))

/-- An instruction that writes one register and the flags and advances. -/
def completeRegFlags (s : State) (d : RegIdx) (r : Dword × Flags) : Result :=
  .next (advance (setFlags (setReg s d r.1) r.2))

/-- A relative branch: `pc + offset` when taken, else `pc + 4`; both from the branch's own address
(R160, R16). -/
def branchIf (s : State) (taken : Bool) (offset : Dword) : Result :=
  .next (if taken then jump s (s.pc + offset) else advance s)

/-- `addr` is in `MEM_DOMAIN` (R6, R35; log entry 3). -/
def backed (p : Params) (addr : Dword) : Bool :=
  p.memDomain.any fun r => decide (r.first ≤ addr) && decide (addr ≤ r.last)

/-- Why no transaction can be made at `addr`: misaligned (R34, R194), else outside `MEM_DOMAIN`
(R35, R195; in this order, DEDUCED, safe, log entry 16). -/
def accessFault (p : Params) (addr : Dword) : Option Fault :=
  if addr.extractLsb' 0 2 ≠ 0#2 then some (.misaligned addr)
  else if backed p addr then none
  else some (.unbacked addr)

/-- `MemRead(addr, 4)` (R31), after its checks. -/
def memRead (s : State) (addr : Dword) : Except Fault Word :=
  match accessFault s.params addr with
  | some f => .error f
  | none => .ok (readWord s.mem addr)

/-- `MemWrite(addr, 4, v)` (R32), after its checks. -/
def memWrite (s : State) (addr : Dword) (v : Word) : Except Fault State :=
  match accessFault s.params addr with
  | some f => .error f
  | none => .ok (setWord s addr v)

/-- A byte or halfword load: one word read, `pick` keeps its low bits, zero-extended (R144, R146). -/
def loadNarrow (s : State) (t : RegIdx) (addr : Dword) (pick : Word → Dword) : Result :=
  match memRead s addr with
  | .error f => .fault f
  | .ok w => completeReg s t (pick w)

/-- The 64-bit load: the word at `addr`, then the word at `addr + 4` (R142, R36). -/
def loadPair (s : State) (t : RegIdx) (addr : Dword) : Result :=
  match memRead s addr with
  | .error f => .fault f
  | .ok lo =>
    match memRead s (addr + 4#64) with
    | .error f => .fault f
    | .ok hi => completeReg s t (hi ++ lo)

/-- A byte or halfword store: one whole-word write (R143, R145). -/
def storeNarrow (s : State) (addr : Dword) (v : Word) : Result :=
  match memWrite s addr v with
  | .error f => .fault f
  | .ok s1 => .next (advance s1)

/-- The 64-bit store: the low half at `addr`, then the high half at `addr + 4` (R141, R37). A stop at
the second word leaves nothing written (R196, log entry 6). -/
def storePair (s : State) (addr : Dword) (v : Dword) : Result :=
  match memWrite s addr (v.extractLsb' 0 32) with
  | .error f => .fault f
  | .ok s1 =>
    match memWrite s1 (addr + 4#64) (v.extractLsb' 32 32) with
    | .error f => .fault f
    | .ok s2 => .next (advance s2)

/-- Why no step exists: `run = 0` (R28), or an `INVALID` word was executed under
`INVALID_POLICY = stop` (R182; log entry 4). -/
def stepFault (s : State) : Option Fault :=
  if s.run = false then some .halted
  else if s.invalidSeen = true ∧ s.params.invalidPolicy = .stop then some .stoppedAfterInvalid
  else none

/-- Lines 1 and 2 of R88: the word at `pc`, or the fault of R18 and R35. -/
def fetch (s : State) : Except Fault Word := memRead s s.pc

/-- The `INVALID` event (R182, R190, R198): `pc + 4` under either policy, no register, flag, run or
memory change, the mark of R183 recorded. The signal itself is `invalidOut`. -/
def takeInvalid (s : State) : Result := .next (advance (markInvalid s))

/-- A clock edge with `rst` asserted: the reset state of R210; the memory is the collaborator's and
stays (R210, R211; log entry 11). -/
def applyReset (s : State) : State := State.resetWith s.params s.mem

end Sys2Proof.Machine
end

