-- ==== Sys2Proof/Machine/Arithmetic.lean ====
section
/-! DEFINITION. The ten arithmetic instructions of 41_arithmetic.md. No operand value faults (R101). -/

namespace Sys2Proof.Machine

open Sys2Proof

/-- `ADD_REG` (R100). -/
def execAddReg (d n m : RegIdx) (s : State) : Result :=
  completeReg s d (readReg s n + readReg s m)

/-- `ADD_REG_FLAGS` (R102). -/
def execAddRegFlags (d n m : RegIdx) (s : State) : Result :=
  completeRegFlags s d (addWithCarry (readReg s n) (readReg s m) false)

/-- `ADD_IMM` (R104). -/
def execAddImm (d n : RegIdx) (sh : BitVec 2) (imm12 : BitVec 12) (s : State) : Result :=
  completeReg s d (readReg s n + immOperand sh imm12)

/-- `ADD_IMM_FLAGS` (R106). -/
def execAddImmFlags (d n : RegIdx) (sh : BitVec 2) (imm12 : BitVec 12) (s : State) : Result :=
  completeRegFlags s d (addWithCarry (readReg s n) (immOperand sh imm12) false)

/-- `SUB_REG_FLAGS` (R108). -/
def execSubRegFlags (d n m : RegIdx) (s : State) : Result :=
  completeRegFlags s d (subWithFlags (readReg s n) (readReg s m))

/-- `CMP_REG`: the flags only (R110). -/
def execCmpReg (n m : RegIdx) (s : State) : Result :=
  completeFlags s (subWithFlags (readReg s n) (readReg s m)).2

/-- `SUB_IMM_FLAGS` (R112). -/
def execSubImmFlags (d n : RegIdx) (sh : BitVec 2) (imm12 : BitVec 12) (s : State) : Result :=
  completeRegFlags s d (subWithFlags (readReg s n) (immOperand sh imm12))

/-- `CMP_IMM`: the flags only (R114). -/
def execCmpImm (n : RegIdx) (sh : BitVec 2) (imm12 : BitVec 12) (s : State) : Result :=
  completeFlags s (subWithFlags (readReg s n) (immOperand sh imm12)).2

/-- `ADD_CARRY_FLAGS`: the carry in is the committed `C` (R116, R20). -/
def execAddCarryFlags (d n m : RegIdx) (s : State) : Result :=
  completeRegFlags s d (addWithCarry (readReg s n) (readReg s m) s.flags.c)

/-- `MULTIPLY`: the accumulator is the real `x[31]` (R118). -/
def execMultiply (d n m : RegIdx) (s : State) : Result :=
  completeReg s d (readReg s 31#5 + readReg s n * readReg s m)

end Sys2Proof.Machine
end

