-- ==== Sys2Proof/Machine/Control.lean ====
section
/-! DEFINITION. The ten control-transfer instructions of 44_control_transfer.md. They write `pc` only
(R160); no branch faults, a misaligned target stops the next step's fetch (R18). -/

namespace Sys2Proof.Machine

open Sys2Proof

/-- `BRANCH_UNCOND` (R162). -/
def execBranchUncond (imm26 : BitVec 26) (s : State) : Result := branchIf s true (offset26 imm26)

/-- `BRANCH_REG`: absolute, all 64 bits (R164). -/
def execBranchReg (n : RegIdx) (s : State) : Result := .next (jump s (readReg s n))

/-- `BRANCH_COND_EQ` (R167). -/
def execBranchCondEq (imm19 : BitVec 19) (s : State) : Result :=
  branchIf s (condEq s.flags) (offset19 imm19)

/-- `BRANCH_COND_NE` (R168). -/
def execBranchCondNe (imm19 : BitVec 19) (s : State) : Result :=
  branchIf s (condNe s.flags) (offset19 imm19)

/-- `BRANCH_COND_GT` (R169). -/
def execBranchCondGt (imm19 : BitVec 19) (s : State) : Result :=
  branchIf s (condGt s.flags) (offset19 imm19)

/-- `BRANCH_COND_LT` (R170). -/
def execBranchCondLt (imm19 : BitVec 19) (s : State) : Result :=
  branchIf s (condLt s.flags) (offset19 imm19)

/-- `BRANCH_COND_GE` (R171). -/
def execBranchCondGe (imm19 : BitVec 19) (s : State) : Result :=
  branchIf s (condGe s.flags) (offset19 imm19)

/-- `BRANCH_COND_LE` (R172). -/
def execBranchCondLe (imm19 : BitVec 19) (s : State) : Result :=
  branchIf s (condLe s.flags) (offset19 imm19)

/-- `CMP_BRANCH_ZERO`: all 64 bits of `x[t]`, no flag (R174). -/
def execCmpBranchZero (t : RegIdx) (imm19 : BitVec 19) (s : State) : Result :=
  branchIf s (readReg s t == 0#64) (offset19 imm19)

/-- `CMP_BRANCH_NONZERO` (R176). -/
def execCmpBranchNonzero (t : RegIdx) (imm19 : BitVec 19) (s : State) : Result :=
  branchIf s (readReg s t != 0#64) (offset19 imm19)

end Sys2Proof.Machine
end

