-- ==== Sys2Proof/Machine/LoadStore.lean ====
section
/-! DEFINITION. The six loads and stores of 43_load_store.md: one addressing mode (R140), the
address checked before any effect (R196), no write-back to the base, no flag. -/

namespace Sys2Proof.Machine

open Sys2Proof

/-- `STORE_WORD`: 64 bits as two words, low half first (R141). -/
def execStoreWord (t n : RegIdx) (imm9 : BitVec 9) (s : State) : Result :=
  storePair s (effAddr s n imm9) (readReg s t)

/-- `LOAD_WORD`: 64 bits from two words (R142). -/
def execLoadWord (t n : RegIdx) (imm9 : BitVec 9) (s : State) : Result :=
  loadPair s t (effAddr s n imm9)

/-- `STORE_BYTE`: a whole word with bits 31:8 zero (R143). -/
def execStoreByte (t n : RegIdx) (imm9 : BitVec 9) (s : State) : Result :=
  storeNarrow s (effAddr s n imm9) (((readReg s t).extractLsb' 0 8).setWidth 32)

/-- `LOAD_BYTE`: the numerically low 8 bits of the word (R144). -/
def execLoadByte (t n : RegIdx) (imm9 : BitVec 9) (s : State) : Result :=
  loadNarrow s t (effAddr s n imm9) fun w => (w.extractLsb' 0 8).setWidth 64

/-- `STORE_HALF`: a whole word with bits 31:16 zero (R145). -/
def execStoreHalf (t n : RegIdx) (imm9 : BitVec 9) (s : State) : Result :=
  storeNarrow s (effAddr s n imm9) (((readReg s t).extractLsb' 0 16).setWidth 32)

/-- `LOAD_HALF`: the numerically low 16 bits of the word (R146). -/
def execLoadHalf (t n : RegIdx) (imm9 : BitVec 9) (s : State) : Result :=
  loadNarrow s t (effAddr s n imm9) fun w => (w.extractLsb' 0 16).setWidth 64

end Sys2Proof.Machine
end

