-- ==== Sys2Proof/Machine/Logic.lean ====
section
/-! DEFINITION. The six logical, move and shift instructions of 42_logical_move_shift.md. No operand
value faults (R121). -/

namespace Sys2Proof.Machine

open Sys2Proof

/-- `AND_FLAGS`: N and Z only; C and V keep their values (R120). -/
def execAndFlags (d n m : RegIdx) (s : State) : Result :=
  let r := readReg s n &&& readReg s m
  completeRegFlags s d (r, logicFlags s.flags r)

/-- `EOR` (R122). -/
def execEor (d n m : RegIdx) (s : State) : Result := completeReg s d (readReg s n ^^^ readReg s m)

/-- `ORR` (R124). -/
def execOrr (d n m : RegIdx) (s : State) : Result := completeReg s d (readReg s n ||| readReg s m)

/-- `MOVE_WIDE_IMM`: zero-extended, never shifted (R126, R54). -/
def execMoveWideImm (d : RegIdx) (imm16 : BitVec 16) (s : State) : Result :=
  completeReg s d (imm16.setWidth 64)

/-- `SHIFT_LEFT` by `64 - immr`; by 64 the result is 0 (R128; log entry 8). -/
def execShiftLeft (d n : RegIdx) (immr : BitVec 6) (s : State) : Result :=
  completeReg s d (readReg s n <<< leftAmount immr)

/-- `SHIFT_RIGHT`, logical, by `immr` (R130). -/
def execShiftRight (d n : RegIdx) (immr : BitVec 6) (s : State) : Result :=
  completeReg s d (readReg s n >>> rightAmount immr)

end Sys2Proof.Machine
end

