-- ==== Sys2Proof/Machine/System.lean ====
section
/-! DEFINITION. The one system instruction of 45_system.md. `INVALID` is no instruction: see
`takeInvalid`. -/

namespace Sys2Proof.Machine

open Sys2Proof

/-- `HALT`: `run <- 0`, and `pc + 4` by the general rule (R180, R90). -/
def execHalt (s : State) : Result := .next (advance (clearRun s))

end Sys2Proof.Machine
end

