-- ==== Sys2Proof/Machine/Dispatch.lean ====
section
/-! DEFINITION. One handler per tag, chosen by the tag alone (R89). -/

namespace Sys2Proof.Machine

open Sys2Proof

/-- The handler of an instruction, with its pc-advance (R88 lines 5 and 6). -/
def exec (i : Instr) (s : State) : Host.Outcome State Fault Refusal :=
  match i with
  -- 41_arithmetic.md
  | .addReg d n m => Sys2Proof.Machine.execAddReg d n m s
  | .addRegFlags d n m => Sys2Proof.Machine.execAddRegFlags d n m s
  | .addImm d n sh imm12 => Sys2Proof.Machine.execAddImm d n sh imm12 s
  | .addImmFlags d n sh imm12 => Sys2Proof.Machine.execAddImmFlags d n sh imm12 s
  | .subRegFlags d n m => Sys2Proof.Machine.execSubRegFlags d n m s
  | .cmpReg n m => Sys2Proof.Machine.execCmpReg n m s
  | .subImmFlags d n sh imm12 => Sys2Proof.Machine.execSubImmFlags d n sh imm12 s
  | .cmpImm n sh imm12 => Sys2Proof.Machine.execCmpImm n sh imm12 s
  | .addCarryFlags d n m => Sys2Proof.Machine.execAddCarryFlags d n m s
  | .multiply d n m => Sys2Proof.Machine.execMultiply d n m s
  -- 42_logical_move_shift.md
  | .andFlags d n m => Sys2Proof.Machine.execAndFlags d n m s
  | .eor d n m => Sys2Proof.Machine.execEor d n m s
  | .orr d n m => Sys2Proof.Machine.execOrr d n m s
  | .moveWideImm d imm16 => Sys2Proof.Machine.execMoveWideImm d imm16 s
  | .shiftLeft d n immr => Sys2Proof.Machine.execShiftLeft d n immr s
  | .shiftRight d n immr => Sys2Proof.Machine.execShiftRight d n immr s
  -- 43_load_store.md
  | .storeWord t n imm9 => Sys2Proof.Machine.execStoreWord t n imm9 s
  | .loadWord t n imm9 => Sys2Proof.Machine.execLoadWord t n imm9 s
  | .storeByte t n imm9 => Sys2Proof.Machine.execStoreByte t n imm9 s
  | .loadByte t n imm9 => Sys2Proof.Machine.execLoadByte t n imm9 s
  | .storeHalf t n imm9 => Sys2Proof.Machine.execStoreHalf t n imm9 s
  | .loadHalf t n imm9 => Sys2Proof.Machine.execLoadHalf t n imm9 s
  -- 44_control_transfer.md
  | .branchUncond imm26 => Sys2Proof.Machine.execBranchUncond imm26 s
  | .branchReg n => Sys2Proof.Machine.execBranchReg n s
  | .branchCondEq imm19 => Sys2Proof.Machine.execBranchCondEq imm19 s
  | .branchCondNe imm19 => Sys2Proof.Machine.execBranchCondNe imm19 s
  | .branchCondGt imm19 => Sys2Proof.Machine.execBranchCondGt imm19 s
  | .branchCondLt imm19 => Sys2Proof.Machine.execBranchCondLt imm19 s
  | .branchCondGe imm19 => Sys2Proof.Machine.execBranchCondGe imm19 s
  | .branchCondLe imm19 => Sys2Proof.Machine.execBranchCondLe imm19 s
  | .cmpBranchZero t imm19 => Sys2Proof.Machine.execCmpBranchZero t imm19 s
  | .cmpBranchNonzero t imm19 => Sys2Proof.Machine.execCmpBranchNonzero t imm19 s
  -- 45_system.md
  | .halt => Sys2Proof.Machine.execHalt s

end Sys2Proof.Machine
end

