-- ==== Sys2Proof/Machine/Step.lean ====
section
/-! DEFINITION. One step (R88), one clock edge with its reset input (R216), and the placing of one
instruction word where the next step fetches. -/

namespace Sys2Proof.Machine

open Sys2Proof

/-- The step of R88: nothing while `run = 0` (R28) or after a stop by policy (R182), else fetch, decode,
one handler or the `INVALID` event. -/
def step (s : State) : Host.Outcome State Fault Refusal :=
  match stepFault s with
  | some f => .fault f
  | none =>
    match fetch s with
    | .error f => .fault f
    | .ok w =>
      match decode w with
      | .ok i => exec i s
      | .error _ => takeInvalid s

/-- A rising edge of `clk`: the reset state while `rst` is asserted, else a step (R210, R211, R216). -/
def clockEdge (rst : Bool) (s : State) : Result := if rst then .next (applyReset s) else step s

/-- `s` with the instruction word `w` of `nbits` bits stored at `pc`, where `step` fetches. It stands for
the driver's loading of a program (R212; log entry 12). -/
def State.withFetchWord (s : State) (nbits w : Nat) : State :=
  setWord s s.pc (BitVec.ofNat 32 (w % 2 ^ nbits))

end Sys2Proof.Machine
end

