-- ==== Sys2Proof/Machine/Asm.lean ====
section
/-! DEFINITION. The assembler of R67 and R68 on operands (not on text; log entry 14): what each
syntax form accepts, and the canonical word it gives. No pseudo-instruction exists (R69). -/

namespace Sys2Proof.Machine

open Sys2Proof

/-- The operand forms of R67: an immediate with or without `LSL12`. -/
structure AsmImm where
  k : Nat
  lsl12 : Bool
  deriving DecidableEq, Repr

/-- The syntax forms of R67. A branch's offset is a signed byte offset from its own address. -/
inductive Asm where
  | addReg (d n m : RegIdx)
  | addRegFlags (d n m : RegIdx)
  | subRegFlags (d n m : RegIdx)
  | addCarryFlags (d n m : RegIdx)
  | andFlags (d n m : RegIdx)
  | eor (d n m : RegIdx)
  | orr (d n m : RegIdx)
  | multiply (d n m : RegIdx)
  | cmpReg (n m : RegIdx)
  | addImm (d n : RegIdx) (imm : AsmImm)
  | addImmFlags (d n : RegIdx) (imm : AsmImm)
  | subImmFlags (d n : RegIdx) (imm : AsmImm)
  | cmpImm (n : RegIdx) (imm : AsmImm)
  | moveWideImm (d : RegIdx) (k : Nat)
  | shiftLeft (d n : RegIdx) (a : Nat)
  | shiftRight (d n : RegIdx) (a : Nat)
  | storeWord (t n : RegIdx) (k : Nat)
  | loadWord (t n : RegIdx) (k : Nat)
  | storeByte (t n : RegIdx) (k : Nat)
  | loadByte (t n : RegIdx) (k : Nat)
  | storeHalf (t n : RegIdx) (k : Nat)
  | loadHalf (t n : RegIdx) (k : Nat)
  | branchUncond (off : Int)
  | branchCondEq (off : Int)
  | branchCondNe (off : Int)
  | branchCondGt (off : Int)
  | branchCondLt (off : Int)
  | branchCondGe (off : Int)
  | branchCondLe (off : Int)
  | cmpBranchZero (t : RegIdx) (off : Int)
  | cmpBranchNonzero (t : RegIdx) (off : Int)
  | branchReg (n : RegIdx)
  | halt
  | word (w : Word)
  deriving DecidableEq, Repr

/-- The fields of `#k` and `#k, LSL12`, 0 to 4095. -/
def asmImmFields (imm : AsmImm) : Option (BitVec 2 × BitVec 12) :=
  if imm.k ≤ 4095 then some (if imm.lsl12 then 1#2 else 0#2, BitVec.ofNat 12 imm.k) else none

/-- A field of `len` bits for the unsigned `k`. -/
def asmUnsigned (len k : Nat) : Option (BitVec len) :=
  if k < 2 ^ len then some (BitVec.ofNat len k) else none

/-- `(off / 4) mod 2^len` for a multiple of 4 with `-2^(len+1) <= off < 2^(len+1)`. -/
def asmOffset (len : Nat) (off : Int) : Option (BitVec len) :=
  if off % 4 = 0 ∧ -2 ^ (len + 1) ≤ off ∧ off < 2 ^ (len + 1) then some (BitVec.ofInt len (off / 4))
  else none

/-- A destination that is not 31 (R62, R67). -/
def asmNot31 (d : RegIdx) (i : Instr) : Option Instr := if d = 31#5 then none else some i

/-- The instruction of a syntax form, where its operands are in range; `.word` has none. -/
def asmInstr : Asm → Option Instr
  | .addReg d n m => some (.addReg d n m)
  | .addRegFlags d n m => some (.addRegFlags d n m)
  | .subRegFlags d n m => asmNot31 d (.subRegFlags d n m)
  | .addCarryFlags d n m => some (.addCarryFlags d n m)
  | .andFlags d n m => some (.andFlags d n m)
  | .eor d n m => some (.eor d n m)
  | .orr d n m => some (.orr d n m)
  | .multiply d n m => some (.multiply d n m)
  | .cmpReg n m => some (.cmpReg n m)
  | .addImm d n imm => (asmImmFields imm).map fun f => .addImm d n f.1 f.2
  | .addImmFlags d n imm => (asmImmFields imm).map fun f => .addImmFlags d n f.1 f.2
  | .subImmFlags d n imm => (asmImmFields imm).bind fun f => asmNot31 d (.subImmFlags d n f.1 f.2)
  | .cmpImm n imm => (asmImmFields imm).map fun f => .cmpImm n f.1 f.2
  | .moveWideImm d k => (asmUnsigned 16 k).map fun f => .moveWideImm d f
  | .shiftLeft d n a =>
    if 1 ≤ a ∧ a ≤ 64 then some (.shiftLeft d n (BitVec.ofNat 6 (64 - a))) else none
  | .shiftRight d n a => (asmUnsigned 6 a).map fun f => .shiftRight d n f
  | .storeWord t n k => (asmUnsigned 9 k).map fun f => .storeWord t n f
  | .loadWord t n k => (asmUnsigned 9 k).map fun f => .loadWord t n f
  | .storeByte t n k => (asmUnsigned 9 k).map fun f => .storeByte t n f
  | .loadByte t n k => (asmUnsigned 9 k).map fun f => .loadByte t n f
  | .storeHalf t n k => (asmUnsigned 9 k).map fun f => .storeHalf t n f
  | .loadHalf t n k => (asmUnsigned 9 k).map fun f => .loadHalf t n f
  | .branchUncond off => (asmOffset 26 off).map fun f => .branchUncond f
  | .branchCondEq off => (asmOffset 19 off).map fun f => .branchCondEq f
  | .branchCondNe off => (asmOffset 19 off).map fun f => .branchCondNe f
  | .branchCondGt off => (asmOffset 19 off).map fun f => .branchCondGt f
  | .branchCondLt off => (asmOffset 19 off).map fun f => .branchCondLt f
  | .branchCondGe off => (asmOffset 19 off).map fun f => .branchCondGe f
  | .branchCondLe off => (asmOffset 19 off).map fun f => .branchCondLe f
  | .cmpBranchZero t off => (asmOffset 19 off).map fun f => .cmpBranchZero t f
  | .cmpBranchNonzero t off => (asmOffset 19 off).map fun f => .cmpBranchNonzero t f
  | .branchReg n => some (.branchReg n)
  | .halt => some .halt
  | .word _ => none

/-- The canonical word of a syntax form (R68); `.word` is the literal word. -/
def assemble : Asm → Option Word
  | .word w => some w
  | a => (asmInstr a).map encode

end Sys2Proof.Machine
end

