-- ==== Sys2Proof/Machine/Ports.lean ====
section
/-! DEFINITION. The core's outputs (R216) as functions of the committed state, and the memory
transactions of a step in their order (R36, R41). They are views: no step reads them
(log entry 13). -/

namespace Sys2Proof.Machine

open Sys2Proof

/-- One transaction of the memory port (R31, R32). -/
inductive Transaction where
  | read (addr : Dword) (data : Word)
  | write (addr : Dword) (data : Word)
  deriving DecidableEq, Repr

/-- The word that the clock edge from `s` fetches: none while `rst` is asserted, where no step exists,
and where the fetch stops. -/
def fetchedWord (rst : Bool) (s : State) : Option Word :=
  if rst then none
  else
    match stepFault s, fetch s with
    | none, .ok w => some w
    | _, _ => none

/-- The `tag` output (R216): the decoder's tag for the word being executed. -/
def tagOut (rst : Bool) (s : State) : Option Tag := (fetchedWord rst s).map decodeTag

/-- The `invalid` output: 1 in a step whose word decodes to `INVALID`, else 0 (R216), and 0 while `rst`
is asserted (R210). -/
def invalidOut (rst : Bool) (s : State) : Bool := tagOut rst s == some .invalid

/-- The data transactions of an instruction that completes, in the order of R36. -/
def dataTransactions (i : Instr) (s : State) : List Transaction :=
  match i with
  | .storeWord t n imm9 =>
    let addr := effAddr s n imm9
    [.write addr ((readReg s t).extractLsb' 0 32), .write (addr + 4#64) ((readReg s t).extractLsb' 32 32)]
  | .loadWord _ n imm9 =>
    let addr := effAddr s n imm9
    [.read addr (readWord s.mem addr), .read (addr + 4#64) (readWord s.mem (addr + 4#64))]
  | .storeByte t n imm9 => [.write (effAddr s n imm9) (((readReg s t).extractLsb' 0 8).setWidth 32)]
  | .loadByte _ n imm9 => [.read (effAddr s n imm9) (readWord s.mem (effAddr s n imm9))]
  | .storeHalf t n imm9 => [.write (effAddr s n imm9) (((readReg s t).extractLsb' 0 16).setWidth 32)]
  | .loadHalf _ n imm9 => [.read (effAddr s n imm9) (readWord s.mem (effAddr s n imm9))]
  | .addReg _ _ _ | .addRegFlags _ _ _ | .addImm _ _ _ _ | .addImmFlags _ _ _ _ | .subRegFlags _ _ _
  | .cmpReg _ _ | .subImmFlags _ _ _ _ | .cmpImm _ _ _ | .addCarryFlags _ _ _ | .multiply _ _ _
  | .andFlags _ _ _ | .eor _ _ _ | .orr _ _ _ | .moveWideImm _ _ | .shiftLeft _ _ _ | .shiftRight _ _ _
  | .branchUncond _ | .branchReg _ | .branchCondEq _ | .branchCondNe _ | .branchCondGt _
  | .branchCondLt _ | .branchCondGe _ | .branchCondLe _ | .cmpBranchZero _ _ | .cmpBranchNonzero _ _
  | .halt => []

/-- The transactions of the clock edge from `s`, the fetch first (R36); none where no step completes. -/
def transactions (rst : Bool) (s : State) : List Transaction :=
  match fetchedWord rst s with
  | none => []
  | some w =>
    match decode w with
    | .error _ => [.read s.pc w]
    | .ok i =>
      match exec i s with
      | .next _ => .read s.pc w :: dataTransactions i s
      | .fault _ => []
      | .refused _ => []

/-- The memory after transactions, each write replacing one word, in order (R32, R41). -/
def applyTransactions : List Transaction → Memory → Memory
  | [], m => m
  | .read _ _ :: rest, m => applyTransactions rest m
  | .write addr data :: rest, m => applyTransactions rest (writeWord m addr data)

end Sys2Proof.Machine
end

