-- ==== Sys2Proof/Safety.lean ====
section
/-! DEFINITION. The words claims are made in: what stays the same between two states, the machine's
invariants, runs, and a safe run. -/

namespace Sys2Proof.Machine

open Sys2Proof

/-- The address is a multiple of 4 (R18, R34). -/
def Aligned (a : Dword) : Prop := a.toNat % 4 = 0

/-- An access of one word at `addr` can be made: aligned and in `MEM_DOMAIN` (R34, R35). -/
def Accessible (p : Params) (addr : Dword) : Prop := Aligned addr ∧ backed p addr = true

/-- `x[d]` is `v` in `t` and every other register is as in `s`. -/
def WroteReg (s t : State) (d : RegIdx) (v : Dword) : Prop :=
  readReg t d = v ∧ ∀ k, k ≠ d → readReg t k = readReg s k

/-- Every general register reads the same. -/
def SameRegs (s t : State) : Prop := ∀ k, readReg t k = readReg s k

/-- Every byte of memory reads the same. -/
def SameMem (s t : State) : Prop := ∀ a, readByte t.mem a = readByte s.mem a

/-- `a` is the address of one of the four bytes of the word at `addr`. -/
def InWord (addr : Dword) (a : Nat) : Prop := ∃ k, k < 4 ∧ a = byteAddr addr k

/-- The word at `addr` reads `v` in `t` and every byte outside it reads as in `s`. -/
def WroteWord (s t : State) (addr : Dword) (v : Word) : Prop :=
  readWord t.mem addr = v ∧ ∀ a, ¬ InWord addr a → readByte t.mem a = readByte s.mem a

/-- What no instruction but `HALT` and no step but an `INVALID` one touches: the run flag, the fault
mark, and the parameters, which nothing touches. -/
def SameControl (s t : State) : Prop :=
  t.run = s.run ∧ t.invalidSeen = s.invalidSeen ∧ t.params = s.params

/-- One register written with `v`, the flags become `f`, `pc + 4`, and nothing else changes. -/
def RegResult (s t : State) (d : RegIdx) (v : Dword) (f : Flags) : Prop :=
  WroteReg s t d v ∧ t.flags = f ∧ t.pc = s.pc + 4#64 ∧ SameMem s t ∧ SameControl s t

/-- The flags become `f`, `pc + 4`, and nothing else changes. -/
def FlagResult (s t : State) (f : Flags) : Prop :=
  SameRegs s t ∧ t.flags = f ∧ t.pc = s.pc + 4#64 ∧ SameMem s t ∧ SameControl s t

/-- `pc` becomes `target` and nothing else changes. -/
def PcResult (s t : State) (target : Dword) : Prop :=
  SameRegs s t ∧ t.flags = s.flags ∧ t.pc = target ∧ SameMem s t ∧ SameControl s t

/-- What a store changes besides memory: `pc + 4` only. -/
def StoreFrame (s t : State) : Prop :=
  SameRegs s t ∧ t.flags = s.flags ∧ t.pc = s.pc + 4#64 ∧ SameControl s t

/-- The answer with `g` applied to a next state. -/
def mapNext (g : State → State) : Result → Result
  | .next t => .next (g t)
  | .fault f => .fault f
  | .refused r => .refused r

/-- The state with `N` set to `b`. -/
def putN (b : Bool) (s : State) : State := setFlags s { s.flags with n := b }
/-- The state with `Z` set to `b`. -/
def putZ (b : Bool) (s : State) : State := setFlags s { s.flags with z := b }
/-- The state with `C` set to `b`. -/
def putC (b : Bool) (s : State) : State := setFlags s { s.flags with c := b }
/-- The state with `V` set to `b`. -/
def putV (b : Bool) (s : State) : State := setFlags s { s.flags with v := b }

/-- The ten control-transfer instructions (R16, R90). -/
def isControlTransfer (i : Instr) : Bool :=
  i.tag ∈ [.branchUncond, .branchReg, .branchCondEq, .branchCondNe, .branchCondGt, .branchCondLt,
    .branchCondGe, .branchCondLe, .cmpBranchZero, .cmpBranchNonzero]

/-- The instructions that write all four flags (R24). -/
def writesNZCV (i : Instr) : Bool :=
  i.tag ∈ [.addRegFlags, .addImmFlags, .subRegFlags, .cmpReg, .subImmFlags, .cmpImm, .addCarryFlags]

/-- The general register an instruction writes, if any (R13). -/
def destination : Instr → Option RegIdx
  | .addReg d _ _ | .addRegFlags d _ _ | .addImm d _ _ _ | .addImmFlags d _ _ _ | .subRegFlags d _ _
  | .subImmFlags d _ _ _ | .addCarryFlags d _ _ | .multiply d _ _ | .andFlags d _ _ | .eor d _ _
  | .orr d _ _ | .moveWideImm d _ | .shiftLeft d _ _ | .shiftRight d _ _ | .loadWord d _ _
  | .loadByte d _ _ | .loadHalf d _ _ => some d
  | .cmpReg _ _ | .cmpImm _ _ _ | .storeWord _ _ _ | .storeByte _ _ _ | .storeHalf _ _ _
  | .branchUncond _ | .branchReg _ | .branchCondEq _ | .branchCondNe _ | .branchCondGt _
  | .branchCondLt _ | .branchCondGe _ | .branchCondLe _ | .cmpBranchZero _ _ | .cmpBranchNonzero _ _
  | .halt => none

/-- The base register and offset of the six loads and stores (R140). -/
def dataAddress : Instr → Option (RegIdx × BitVec 9)
  | .storeWord _ n k | .loadWord _ n k | .storeByte _ n k | .loadByte _ n k | .storeHalf _ n k
  | .loadHalf _ n k => some (n, k)
  | .addReg _ _ _ | .addRegFlags _ _ _ | .addImm _ _ _ _ | .addImmFlags _ _ _ _ | .subRegFlags _ _ _
  | .cmpReg _ _ | .subImmFlags _ _ _ _ | .cmpImm _ _ _ | .addCarryFlags _ _ _ | .multiply _ _ _
  | .andFlags _ _ _ | .eor _ _ _ | .orr _ _ _ | .moveWideImm _ _ | .shiftLeft _ _ _ | .shiftRight _ _ _
  | .branchUncond _ | .branchReg _ | .branchCondEq _ | .branchCondNe _ | .branchCondGt _
  | .branchCondLt _ | .branchCondGe _ | .branchCondLe _ | .cmpBranchZero _ _ | .cmpBranchNonzero _ _
  | .halt => none

/-- Every aligned address is in `MEM_DOMAIN`, as in the default (R6). -/
def FullDomain (p : Params) : Prop := ∀ a, Aligned a → backed p a = true

/-- A step is due: `run = 1`, and the driver has not stopped by policy (R28, R182). -/
def StepDue (s : State) : Prop :=
  s.run = true ∧ ¬ (s.invalidSeen = true ∧ s.params.invalidPolicy = .stop)

/-- The invariant of the memory's form: `Memory.wf` (R33's function, one list for each). -/
def State.Inv (s : State) : Prop := s.mem.wf

/-- A run: `t` is reached from `s` by steps. -/
inductive Reaches : State → State → Prop where
  | refl (s : State) : Reaches s s
  | tail {s t u : State} : Reaches s t → step t = .next u → Reaches s u

/-- A safe run has no fault recorded: no `INVALID` word was executed since reset (R183). -/
def State.Safe (s : State) : Prop := s.invalidSeen = false

end Sys2Proof.Machine
end

