-- ==== Sys2Proof/Certificates/Slice0/Obligations.lean ====
section
/-! DEFINITION. The statements for the provers, from the numbered rules of spec/. A statement about an
instruction has two parts where its rule has them: which words are the instruction, and what executing
it gives; the next state is described whole, so each is also the instruction's frame. -/

open Sys2Proof Sys2Proof.Machine

/-! ## The decoder and the encoder -/

/-- R58, R68: the decoder reads every well-formed instruction back from its canonical word. -/
def Obligations.DecodeOfEncodeIsTheInstruction : Prop :=
  ∀ i : Instr, i.wellFormed = true → decode (encode i) = .ok i

/-- R58, R62: what the decoder reads is well formed and of the word's tag, and it rejects exactly the
words tagged `INVALID`. -/
def Obligations.DecodedInstructionIsWellFormedAndTagged : Prop :=
  (∀ (w : Word) (i : Instr), decode w = .ok i → i.wellFormed = true ∧ i.tag = decodeTag w) ∧
  ∀ w : Word, (∃ e, decode w = .error e) ↔ decodeTag w = .invalid

/-- The match/mask table (R63) and the four-stage decoder (R58) are the same function of the word. The
spec marks the table, and the disjointness of the stages (R59), as derived. -/
def Obligations.MatchMaskTableAgreesWithTheDecoder : Prop :=
  ∀ w : Word, (∀ row ∈ opcodeTable, rowSelects row w = true ↔ decodeTag w = row.tag) ∧
    (decodeTag w = .invalid ↔ ∀ row ∈ opcodeTable, rowSelects row w = false)

/-- R66, marked as derived: two words that agree on the bits the decoder or the execution reads are the
same instruction; and of `imms` only its equality with 0x3F matters. -/
def Obligations.DontCareBitsAreIgnored : Prop :=
  (∀ w w' : Word, decodeTag w ≠ .invalid →
    w &&& careMask (decodeTag w) = w' &&& careMask (decodeTag w) → decode w' = decode w) ∧
  ∀ w w' : Word, w.extractLsb' 24 8 = 0xD3#8 → w &&& 0xFF3F03FF#32 = w' &&& 0xFF3F03FF#32 →
    (w.extractLsb' 10 6 = 0x3F#6 ↔ w'.extractLsb' 10 6 = 0x3F#6) → decode w' = decode w

/-- R64: the words that are `INVALID`, by primary byte, condition, load/store selector, and the rest of
0xD4. -/
def Obligations.InvalidWordsAreExactlyTheUnmappedOnes : Prop :=
  ∀ w : Word, decodeTag w = .invalid ↔
    (w.extractLsb' 24 8 ∉ [0xAB#8, 0xB1#8, 0xEB#8, 0xF1#8, 0xEA#8, 0xCA#8, 0xAA#8, 0xD6#8, 0xD3#8, 0xF8#8,
        0x38#8, 0x78#8, 0xD2#8, 0x91#8, 0x8B#8, 0x9B#8, 0xB4#8, 0xB5#8, 0xBA#8, 0x54#8, 0x14#8, 0x15#8,
        0x16#8, 0x17#8, 0xD4#8] ∨
      w.extractLsb' 24 8 = 0x54#8 ∧
        w.extractLsb' 0 4 ∈ [2#4, 3#4, 4#4, 5#4, 6#4, 7#4, 8#4, 9#4, 0xE#4, 0xF#4] ∨
      w.extractLsb' 24 8 ∈ [0xF8#8, 0x38#8, 0x78#8] ∧ w.extractLsb' 22 2 ∈ [2#2, 3#2] ∨
      w.extractLsb' 24 8 = 0xD4#8 ∧ ¬ (w.extractLsb' 21 3 = 0b010#3 ∧ w.extractLsb' 0 5 = 0#5))

/-- Words written out from the examples of the rules decode to what they stand for (R100, R114, R118,
R128, R130, R141, R162, R164, R167, R176, R180, R182). -/
def Obligations.ExampleWordsOfTheSpecDecode : Prop :=
  decode 0x8B020020#32 = .ok (.addReg 0 1 2) ∧
  decode 0xF140047F#32 = .ok (.cmpImm 3 1 1) ∧
  decode 0x9B057C86#32 = .ok (.multiply 6 4 5) ∧
  decode 0xD37CEC20#32 = .ok (.shiftLeft 0 1 60) ∧
  decode 0xD304FC20#32 = .ok (.shiftRight 0 1 4) ∧
  decode 0xF8008022#32 = .ok (.storeWord 2 1 8) ∧
  decode 0x17FFFFFF#32 = .ok (.branchUncond 0x3FFFFFF) ∧
  decode 0xD61F0120#32 = .ok (.branchReg 9) ∧
  decode 0x54000070#32 = .ok (.branchCondEq 3) ∧
  decode 0xB5FFFFC1#32 = .ok (.cmpBranchNonzero 1 0x7FFFE) ∧
  decode 0xD45FFFE0#32 = .ok .halt ∧
  decode 0xD503201F#32 = .error (.invalid 0xD503201F)

/-! ## The datapath units -/

/-- R82: the result and the four flags of `AddWithCarry`, on exact sums. -/
def Obligations.AddWithCarryResultAndFlags : Prop :=
  ∀ (x y : Dword) (cin : Bool),
    (addWithCarry x y cin).1.toNat = (x.toNat + y.toNat + cin.toNat) % 2 ^ 64 ∧
    (addWithCarry x y cin).2.n = (addWithCarry x y cin).1.getLsbD 63 ∧
    ((addWithCarry x y cin).2.z = true ↔ (addWithCarry x y cin).1 = 0#64) ∧
    ((addWithCarry x y cin).2.c = true ↔ 2 ^ 64 ≤ x.toNat + y.toNat + cin.toNat) ∧
    ((addWithCarry x y cin).2.v = true ↔
      x.getLsbD 63 = y.getLsbD 63 ∧ (addWithCarry x y cin).1.getLsbD 63 ≠ x.getLsbD 63)

/-- R83, whose formula and counter-example the spec marks as derived: the carry from the sign bits, and
exactly which inputs a `result < x` or `result < y` test gets wrong. -/
def Obligations.CarryIsTheTrueSixtyFifthBit : Prop :=
  ∀ (x y : Dword) (cin : Bool),
    ((addWithCarry x y cin).2.c = true ↔ 2 ^ 64 ≤ x.toNat + y.toNat + cin.toNat) ∧
    (addWithCarry x y cin).2.c =
      (x.getLsbD 63 && y.getLsbD 63 ||
        (x.getLsbD 63 || y.getLsbD 63) && !(addWithCarry x y cin).1.getLsbD 63) ∧
    ((addWithCarry x y cin).2.c ≠ decide ((addWithCarry x y cin).1 < x) ↔ y.toNat + cin.toNat = 2 ^ 64) ∧
    ((addWithCarry x y cin).2.c ≠ decide ((addWithCarry x y cin).1 < y) ↔ x.toNat + cin.toNat = 2 ^ 64)

/-- R84, whose equivalent forms are marked as derived: signed overflow is a signed sum out of range, and
is bit 63 of the formula given there. -/
def Obligations.OverflowIsASignedSumOutOfRange : Prop :=
  ∀ (x y : Dword) (cin : Bool),
    ((addWithCarry x y cin).2.v = true ↔
      ¬ (-2 ^ 63 ≤ x.toInt + y.toInt + (cin.toNat : Int) ∧
        x.toInt + y.toInt + (cin.toNat : Int) ≤ 2 ^ 63 - 1)) ∧
    (addWithCarry x y cin).2.v = (~~~(x ^^^ y) &&& (x ^^^ (addWithCarry x y cin).1)).getLsbD 63

/-- R85, whose flag meanings are marked as derived: the flags of a subtraction through the adder compare
its operands. -/
def Obligations.SubtractionFlagsCompareTheOperands : Prop :=
  ∀ x y : Dword,
    (addWithCarry x (~~~y) true).1 = x - y ∧
    ((addWithCarry x (~~~y) true).2.c = true ↔ y.toNat ≤ x.toNat) ∧
    ((addWithCarry x (~~~y) true).2.z = true ↔ x = y) ∧
    (addWithCarry x (~~~y) true).2.n = (x - y).getLsbD 63 ∧
    ((addWithCarry x (~~~y) true).2.v = true ↔
      ¬ (-2 ^ 63 ≤ x.toInt - y.toInt ∧ x.toInt - y.toInt ≤ 2 ^ 63 - 1))

/-- R86: `sext_N` as a number and as a pattern, for every width of the contract. -/
def Obligations.SignExtensionKeepsTheSignedValue : Prop :=
  ∀ (N : Nat) (v : Dword), 1 ≤ N → N ≤ 64 →
    (sext N v).toNat =
      (if v.getLsbD (N - 1) then v.toNat % 2 ^ N + (2 ^ 64 - 2 ^ N) else v.toNat % 2 ^ N) ∧
    (sext N v).toInt =
      ((v.toNat % 2 ^ N : Nat) : Int) - (2 : Int) ^ N * ((v.getLsbD (N - 1)).toNat : Int)

/-- R56: a branch offset is four times the signed field, in the ranges given there. -/
def Obligations.BranchOffsetsAreFourTimesTheSignedField : Prop :=
  (∀ imm26 : BitVec 26, (offset26 imm26).toInt = 4 * imm26.toInt ∧
    -2 ^ 27 ≤ (offset26 imm26).toInt ∧ (offset26 imm26).toInt ≤ 2 ^ 27 - 4 ∧
    offset26 imm26 = sext 28 (BitVec.ofNat 64 (4 * imm26.toNat))) ∧
  ∀ imm19 : BitVec 19, (offset19 imm19).toInt = 4 * imm19.toInt ∧
    -2 ^ 20 ≤ (offset19 imm19).toInt ∧ (offset19 imm19).toInt ≤ 2 ^ 20 - 4 ∧
    offset19 imm19 = sext 21 (BitVec.ofNat 64 (4 * imm19.toNat))

/-! ## Arithmetic -/

/-- R100. -/
def Obligations.AddRegWritesTheSum : Prop :=
  (∀ w : Word, w.extractLsb' 24 8 = 0x8B#8 →
    decode w = .ok (.addReg (w.extractLsb' 0 5) (w.extractLsb' 5 5) (w.extractLsb' 16 5))) ∧
  ∀ (d n m : RegIdx) (s : State), ∃ t, exec (.addReg d n m) s = .next t ∧
    RegResult s t d (BitVec.ofNat 64 ((readReg s n).toNat + (readReg s m).toNat)) s.flags

/-- R102. -/
def Obligations.AddRegFlagsWritesTheSumAndFlags : Prop :=
  (∀ w : Word, w.extractLsb' 24 8 = 0xAB#8 →
    decode w = .ok (.addRegFlags (w.extractLsb' 0 5) (w.extractLsb' 5 5) (w.extractLsb' 16 5))) ∧
  ∀ (d n m : RegIdx) (s : State), ∃ t, exec (.addRegFlags d n m) s = .next t ∧
    RegResult s t d (addWithCarry (readReg s n) (readReg s m) false).1
      (addWithCarry (readReg s n) (readReg s m) false).2

/-- R104, with the immediate of R53: shifted exactly when `sh = 1`. -/
def Obligations.AddImmWritesTheSum : Prop :=
  (∀ w : Word, w.extractLsb' 24 8 = 0x91#8 →
    decode w = .ok (.addImm (w.extractLsb' 0 5) (w.extractLsb' 5 5) (w.extractLsb' 22 2)
      (w.extractLsb' 10 12))) ∧
  ∀ (d n : RegIdx) (sh : BitVec 2) (imm12 : BitVec 12) (s : State),
    ∃ t, exec (.addImm d n sh imm12) s = .next t ∧
      RegResult s t d
        (BitVec.ofNat 64 ((readReg s n).toNat +
          (if sh = 1#2 then imm12.toNat * 4096 else imm12.toNat))) s.flags

/-- R106. -/
def Obligations.AddImmFlagsWritesTheSumAndFlags : Prop :=
  (∀ w : Word, w.extractLsb' 24 8 = 0xB1#8 →
    decode w = .ok (.addImmFlags (w.extractLsb' 0 5) (w.extractLsb' 5 5) (w.extractLsb' 22 2)
      (w.extractLsb' 10 12))) ∧
  ∀ (d n : RegIdx) (sh : BitVec 2) (imm12 : BitVec 12) (s : State) (imm : Dword),
    imm = BitVec.ofNat 64 (if sh = 1#2 then imm12.toNat * 4096 else imm12.toNat) →
    (∃ t, exec (.addImmFlags d n sh imm12) s = .next t ∧
      RegResult s t d (addWithCarry (readReg s n) imm false).1 (addWithCarry (readReg s n) imm false).2) ∧
    ((addWithCarry (readReg s n) imm false).2.v = true →
      (readReg s n).getLsbD 63 = false ∧ (addWithCarry (readReg s n) imm false).1.getLsbD 63 = true)

/-- R108 and R110: subtraction writes its destination and the flags, comparison the flags only; the
destination field 31 tells them apart. -/
def Obligations.SubRegFlagsAndCmpRegResults : Prop :=
  (∀ w : Word, w.extractLsb' 24 8 = 0xEB#8 → w.extractLsb' 0 5 ≠ 31#5 →
    decode w = .ok (.subRegFlags (w.extractLsb' 0 5) (w.extractLsb' 5 5) (w.extractLsb' 16 5))) ∧
  (∀ w : Word, w.extractLsb' 24 8 = 0xEB#8 → w.extractLsb' 0 5 = 31#5 →
    decode w = .ok (.cmpReg (w.extractLsb' 5 5) (w.extractLsb' 16 5))) ∧
  (∀ (d n m : RegIdx) (s : State), ∃ t, exec (.subRegFlags d n m) s = .next t ∧
    (addWithCarry (readReg s n) (~~~(readReg s m)) true).1 = readReg s n - readReg s m ∧
    ((addWithCarry (readReg s n) (~~~(readReg s m)) true).2.c = true ↔
      (readReg s m).toNat ≤ (readReg s n).toNat) ∧
    RegResult s t d (addWithCarry (readReg s n) (~~~(readReg s m)) true).1
      (addWithCarry (readReg s n) (~~~(readReg s m)) true).2) ∧
  ∀ (n m : RegIdx) (s : State), ∃ t, exec (.cmpReg n m) s = .next t ∧
    FlagResult s t (addWithCarry (readReg s n) (~~~(readReg s m)) true).2

/-- R112 and R114: the same with an immediate. -/
def Obligations.SubImmFlagsAndCmpImmResults : Prop :=
  (∀ w : Word, w.extractLsb' 24 8 = 0xF1#8 → w.extractLsb' 0 5 ≠ 31#5 →
    decode w = .ok (.subImmFlags (w.extractLsb' 0 5) (w.extractLsb' 5 5) (w.extractLsb' 22 2)
      (w.extractLsb' 10 12))) ∧
  (∀ w : Word, w.extractLsb' 24 8 = 0xF1#8 → w.extractLsb' 0 5 = 31#5 →
    decode w = .ok (.cmpImm (w.extractLsb' 5 5) (w.extractLsb' 22 2) (w.extractLsb' 10 12))) ∧
  ∀ (n : RegIdx) (sh : BitVec 2) (imm12 : BitVec 12) (s : State) (imm : Dword),
    imm = BitVec.ofNat 64 (if sh = 1#2 then imm12.toNat * 4096 else imm12.toNat) →
    (∀ d : RegIdx, ∃ t, exec (.subImmFlags d n sh imm12) s = .next t ∧
      RegResult s t d (addWithCarry (readReg s n) (~~~imm) true).1
        (addWithCarry (readReg s n) (~~~imm) true).2) ∧
    ∃ t, exec (.cmpImm n sh imm12) s = .next t ∧
      FlagResult s t (addWithCarry (readReg s n) (~~~imm) true).2

/-- R116: the carry in is the `C` of the state before. -/
def Obligations.AddCarryFlagsAddsTheCommittedCarry : Prop :=
  (∀ w : Word, w.extractLsb' 24 8 = 0xBA#8 →
    decode w = .ok (.addCarryFlags (w.extractLsb' 0 5) (w.extractLsb' 5 5) (w.extractLsb' 16 5))) ∧
  ∀ (d n m : RegIdx) (s : State), ∃ t, exec (.addCarryFlags d n m) s = .next t ∧
    RegResult s t d (addWithCarry (readReg s n) (readReg s m) s.flags.c).1
      (addWithCarry (readReg s n) (readReg s m) s.flags.c).2

/-- R118: the accumulator is `x[31]`, and product and sum wrap. -/
def Obligations.MultiplyAddsTheProductToRegister31 : Prop :=
  (∀ w : Word, w.extractLsb' 24 8 = 0x9B#8 →
    decode w = .ok (.multiply (w.extractLsb' 0 5) (w.extractLsb' 5 5) (w.extractLsb' 16 5))) ∧
  ∀ (d n m : RegIdx) (s : State), ∃ t, exec (.multiply d n m) s = .next t ∧
    RegResult s t d
      (BitVec.ofNat 64 ((readReg s 31#5).toNat + (readReg s n).toNat * (readReg s m).toNat)) s.flags ∧
    (readReg t d).toInt % 2 ^ 64 =
      ((readReg s 31#5).toInt + (readReg s n).toInt * (readReg s m).toInt) % 2 ^ 64

/-! ## Logical, move and shift -/

/-- R120: N and Z of the conjunction; C and V keep their values. -/
def Obligations.AndFlagsWritesNAndZOnly : Prop :=
  (∀ w : Word, w.extractLsb' 24 8 = 0xEA#8 →
    decode w = .ok (.andFlags (w.extractLsb' 0 5) (w.extractLsb' 5 5) (w.extractLsb' 16 5))) ∧
  ∀ (d n m : RegIdx) (s : State), ∃ t, exec (.andFlags d n m) s = .next t ∧
    RegResult s t d (readReg s n &&& readReg s m)
      { n := (readReg s n &&& readReg s m).getLsbD 63
        z := decide (readReg s n &&& readReg s m = 0#64)
        c := s.flags.c
        v := s.flags.v }

/-- R122 and R124, with the identities of TP1 §8. -/
def Obligations.EorAndOrrResults : Prop :=
  (∀ w : Word, w.extractLsb' 24 8 = 0xCA#8 →
    decode w = .ok (.eor (w.extractLsb' 0 5) (w.extractLsb' 5 5) (w.extractLsb' 16 5))) ∧
  (∀ w : Word, w.extractLsb' 24 8 = 0xAA#8 →
    decode w = .ok (.orr (w.extractLsb' 0 5) (w.extractLsb' 5 5) (w.extractLsb' 16 5))) ∧
  ∀ (d n m : RegIdx) (s : State),
    (∃ t, exec (.eor d n m) s = .next t ∧
      RegResult s t d (readReg s n ^^^ readReg s m) s.flags ∧ (n = m → readReg t d = 0#64)) ∧
    ∃ t, exec (.orr d n m) s = .next t ∧
      RegResult s t d (readReg s n ||| readReg s m) s.flags ∧
      (readReg s m = 0#64 → readReg t d = readReg s n) ∧ (n = m → readReg t d = readReg s m)

/-- R126: zero-extended, never shifted. -/
def Obligations.MoveWideImmZeroExtends : Prop :=
  (∀ w : Word, w.extractLsb' 24 8 = 0xD2#8 →
    decode w = .ok (.moveWideImm (w.extractLsb' 0 5) (w.extractLsb' 5 16))) ∧
  ∀ (d : RegIdx) (imm16 : BitVec 16) (s : State), ∃ t, exec (.moveWideImm d imm16) s = .next t ∧
    RegResult s t d (BitVec.ofNat 64 imm16.toNat) s.flags

/-- R128: multiplication by `2^(64 - immr)` modulo 2^64. That `immr = 0` gives 0 is the decision D13, and
that `SHL64` (R6) is not carried instead is the model's choice, log entry 8. -/
def Obligations.ShiftLeftMultipliesByAPowerOfTwo : Prop :=
  (∀ w : Word, w.extractLsb' 24 8 = 0xD3#8 → w.extractLsb' 10 6 ≠ 0x3F#6 →
    decode w = .ok (.shiftLeft (w.extractLsb' 0 5) (w.extractLsb' 5 5) (w.extractLsb' 16 6))) ∧
  ∀ (d n : RegIdx) (immr : BitVec 6) (s : State), ∃ t, exec (.shiftLeft d n immr) s = .next t ∧
    RegResult s t d (BitVec.ofNat 64 ((readReg s n).toNat * 2 ^ (64 - immr.toNat))) s.flags ∧
    (immr = 0#6 → readReg t d = 0#64)

/-- R130: division by `2^immr`, logical. -/
def Obligations.ShiftRightDividesByAPowerOfTwo : Prop :=
  (∀ w : Word, w.extractLsb' 24 8 = 0xD3#8 → w.extractLsb' 10 6 = 0x3F#6 →
    decode w = .ok (.shiftRight (w.extractLsb' 0 5) (w.extractLsb' 5 5) (w.extractLsb' 16 6))) ∧
  ∀ (d n : RegIdx) (immr : BitVec 6) (s : State), ∃ t, exec (.shiftRight d n immr) s = .next t ∧
    RegResult s t d (BitVec.ofNat 64 ((readReg s n).toNat / 2 ^ immr.toNat)) s.flags

/-! ## Loads and stores -/

/-- R141: two words, the low half first and at the address of R140; a misaligned address stops with
nothing done. -/
def Obligations.StoreWordWritesTwoWords : Prop :=
  (∀ w : Word, w.extractLsb' 24 8 = 0xF8#8 → w.extractLsb' 22 2 = 0#2 →
    decode w = .ok (.storeWord (w.extractLsb' 0 5) (w.extractLsb' 5 5) (w.extractLsb' 12 9))) ∧
  (∀ (t n : RegIdx) (imm9 : BitVec 9) (s : State), Accessible s.params (effAddr s n imm9) →
    Accessible s.params (effAddr s n imm9 + 4#64) →
    (effAddr s n imm9).toNat = ((readReg s n).toNat + imm9.toNat) % 2 ^ 64 ∧
    dataTransactions (.storeWord t n imm9) s =
      [.write (effAddr s n imm9) ((readReg s t).extractLsb' 0 32),
        .write (effAddr s n imm9 + 4#64) ((readReg s t).extractLsb' 32 32)] ∧
    ∃ u, exec (.storeWord t n imm9) s = .next u ∧ StoreFrame s u ∧
      readWord u.mem (effAddr s n imm9) = (readReg s t).extractLsb' 0 32 ∧
      readWord u.mem (effAddr s n imm9 + 4#64) = (readReg s t).extractLsb' 32 32 ∧
      ∀ a, ¬ InWord (effAddr s n imm9) a → ¬ InWord (effAddr s n imm9 + 4#64) a →
        readByte u.mem a = readByte s.mem a) ∧
  ∀ (t n : RegIdx) (imm9 : BitVec 9) (s : State), ¬ Aligned (effAddr s n imm9) →
    exec (.storeWord t n imm9) s = .fault (.misaligned (effAddr s n imm9))

/-- R142: 64 bits from two words; a misaligned address stops. -/
def Obligations.LoadWordReadsTwoWords : Prop :=
  (∀ w : Word, w.extractLsb' 24 8 = 0xF8#8 → w.extractLsb' 22 2 = 1#2 →
    decode w = .ok (.loadWord (w.extractLsb' 0 5) (w.extractLsb' 5 5) (w.extractLsb' 12 9))) ∧
  (∀ (t n : RegIdx) (imm9 : BitVec 9) (s : State), Accessible s.params (effAddr s n imm9) →
    Accessible s.params (effAddr s n imm9 + 4#64) →
    (effAddr s n imm9).toNat = ((readReg s n).toNat + imm9.toNat) % 2 ^ 64 ∧
    ∃ u, exec (.loadWord t n imm9) s = .next u ∧
      RegResult s u t
        (BitVec.ofNat 64 ((readWord s.mem (effAddr s n imm9 + 4#64)).toNat * 2 ^ 32 +
          (readWord s.mem (effAddr s n imm9)).toNat)) s.flags) ∧
  ∀ (t n : RegIdx) (imm9 : BitVec 9) (s : State), ¬ Aligned (effAddr s n imm9) →
    exec (.loadWord t n imm9) s = .fault (.misaligned (effAddr s n imm9))

/-- R143 and R145: the whole word is replaced, its upper bits by zeros; a misaligned address stops. -/
def Obligations.StoreByteAndHalfReplaceTheWholeWord : Prop :=
  (∀ w : Word, w.extractLsb' 24 8 = 0x38#8 → w.extractLsb' 22 2 = 0#2 →
    decode w = .ok (.storeByte (w.extractLsb' 0 5) (w.extractLsb' 5 5) (w.extractLsb' 12 9))) ∧
  (∀ w : Word, w.extractLsb' 24 8 = 0x78#8 → w.extractLsb' 22 2 = 0#2 →
    decode w = .ok (.storeHalf (w.extractLsb' 0 5) (w.extractLsb' 5 5) (w.extractLsb' 12 9))) ∧
  (∀ (t n : RegIdx) (imm9 : BitVec 9) (s : State), Accessible s.params (effAddr s n imm9) →
    (effAddr s n imm9).toNat = ((readReg s n).toNat + imm9.toNat) % 2 ^ 64 ∧
    (∃ u, exec (.storeByte t n imm9) s = .next u ∧ StoreFrame s u ∧
      WroteWord s u (effAddr s n imm9) (BitVec.ofNat 32 ((readReg s t).toNat % 2 ^ 8))) ∧
    ∃ u, exec (.storeHalf t n imm9) s = .next u ∧ StoreFrame s u ∧
      WroteWord s u (effAddr s n imm9) (BitVec.ofNat 32 ((readReg s t).toNat % 2 ^ 16))) ∧
  ∀ (t n : RegIdx) (imm9 : BitVec 9) (s : State), ¬ Aligned (effAddr s n imm9) →
    exec (.storeByte t n imm9) s = .fault (.misaligned (effAddr s n imm9)) ∧
    exec (.storeHalf t n imm9) s = .fault (.misaligned (effAddr s n imm9))

/-- R144 and R146: the numerically low bits, zero-extended; a misaligned address stops. -/
def Obligations.LoadByteAndHalfZeroExtend : Prop :=
  (∀ w : Word, w.extractLsb' 24 8 = 0x38#8 → w.extractLsb' 22 2 = 1#2 →
    decode w = .ok (.loadByte (w.extractLsb' 0 5) (w.extractLsb' 5 5) (w.extractLsb' 12 9))) ∧
  (∀ w : Word, w.extractLsb' 24 8 = 0x78#8 → w.extractLsb' 22 2 = 1#2 →
    decode w = .ok (.loadHalf (w.extractLsb' 0 5) (w.extractLsb' 5 5) (w.extractLsb' 12 9))) ∧
  (∀ (t n : RegIdx) (imm9 : BitVec 9) (s : State), Accessible s.params (effAddr s n imm9) →
    (effAddr s n imm9).toNat = ((readReg s n).toNat + imm9.toNat) % 2 ^ 64 ∧
    (∃ u, exec (.loadByte t n imm9) s = .next u ∧
      RegResult s u t (BitVec.ofNat 64 ((readWord s.mem (effAddr s n imm9)).toNat % 2 ^ 8)) s.flags) ∧
    ∃ u, exec (.loadHalf t n imm9) s = .next u ∧
      RegResult s u t (BitVec.ofNat 64 ((readWord s.mem (effAddr s n imm9)).toNat % 2 ^ 16)) s.flags) ∧
  ∀ (t n : RegIdx) (imm9 : BitVec 9) (s : State), ¬ Aligned (effAddr s n imm9) →
    exec (.loadByte t n imm9) s = .fault (.misaligned (effAddr s n imm9)) ∧
    exec (.loadHalf t n imm9) s = .fault (.misaligned (effAddr s n imm9))

/-- R140, R194, R195: for the six loads and stores the address is `x[n]` plus the unsigned offset modulo
2^64, and they stop exactly at a misaligned or unbacked one; every other instruction never stops. The
clause on an unbacked second word is the model's inference, log entry 6, from R195 and from R196, which
the spec marks as derived. -/
def Obligations.LoadsAndStoresStopExactlyAtBadAddresses : Prop :=
  (∀ (s : State) (n : RegIdx) (k : BitVec 9),
    (effAddr s n k).toNat = ((readReg s n).toNat + k.toNat) % 2 ^ 64) ∧
  (∀ (i : Instr) (s : State) (f : Fault), exec i s = .fault f →
    ∃ n k, dataAddress i = some (n, k) ∧
      (¬ Aligned (effAddr s n k) ∧ f = .misaligned (effAddr s n k) ∨
        Aligned (effAddr s n k) ∧ backed s.params (effAddr s n k) = false ∧
          f = .unbacked (effAddr s n k) ∨
        Accessible s.params (effAddr s n k) ∧ backed s.params (effAddr s n k + 4#64) = false ∧
          f = .unbacked (effAddr s n k + 4#64) ∧ (i.tag = .storeWord ∨ i.tag = .loadWord))) ∧
  (∀ (i : Instr) (s : State) (n : RegIdx) (k : BitVec 9), dataAddress i = some (n, k) →
    (¬ Aligned (effAddr s n k) → exec i s = .fault (.misaligned (effAddr s n k))) ∧
    (Aligned (effAddr s n k) → backed s.params (effAddr s n k) = false →
      exec i s = .fault (.unbacked (effAddr s n k))) ∧
    (Accessible s.params (effAddr s n k) → backed s.params (effAddr s n k + 4#64) = false →
      i.tag = .storeWord ∨ i.tag = .loadWord →
      exec i s = .fault (.unbacked (effAddr s n k + 4#64)))) ∧
  ∀ (i : Instr) (s : State) (r : Refusal), exec i s ≠ .refused r

/-- T10 of TP1 §8, by R37: what `STORE_WORD` stored, `LOAD_WORD` at the same base and offset returns
in the next state. -/
def Obligations.StoreWordThenLoadWordReturnsTheValue : Prop :=
  ∀ (t u n : RegIdx) (imm9 : BitVec 9) (s s1 : State), exec (.storeWord t n imm9) s = .next s1 →
    ∃ s2, exec (.loadWord u n imm9) s1 = .next s2 ∧ readReg s2 u = readReg s t

/-- R39, marked as derived: what a load of another width sees after a store. -/
def Obligations.MixedWidthAccesses : Prop :=
  (∀ (t u n : RegIdx) (k : BitVec 9) (s s1 : State),
    Accessible s.params (effAddr s n k + 4#64) →
    (exec (.storeByte t n k) s = .next s1 → ∃ s2, exec (.loadWord u n k) s1 = .next s2 ∧
      readReg s2 u =
        readWord s.mem (effAddr s n k + 4#64) ++ BitVec.ofNat 32 ((readReg s t).toNat % 2 ^ 8)) ∧
    (exec (.storeHalf t n k) s = .next s1 → ∃ s2, exec (.loadWord u n k) s1 = .next s2 ∧
      readReg s2 u =
        readWord s.mem (effAddr s n k + 4#64) ++ BitVec.ofNat 32 ((readReg s t).toNat % 2 ^ 16))) ∧
  ∀ (t u n n' : RegIdx) (k k' : BitVec 9) (s s1 : State), exec (.storeWord t n k) s = .next s1 →
    (effAddr s n' k' = effAddr s n k →
      (∃ s2, exec (.loadByte u n' k') s1 = .next s2 ∧
        readReg s2 u = ((readReg s t).extractLsb' 0 8).setWidth 64) ∧
      ∃ s2, exec (.loadHalf u n' k') s1 = .next s2 ∧
        readReg s2 u = ((readReg s t).extractLsb' 0 16).setWidth 64) ∧
    (effAddr s n' k' = effAddr s n k + 4#64 →
      (∃ s2, exec (.loadByte u n' k') s1 = .next s2 ∧
        readReg s2 u = ((readReg s t).extractLsb' 32 8).setWidth 64) ∧
      ∃ s2, exec (.loadHalf u n' k') s1 = .next s2 ∧
        readReg s2 u = ((readReg s t).extractLsb' 32 16).setWidth 64)

/-- R44 and R148, marked as derived: a word stored at the address of the next instruction is what the
next step fetches, the high word of a `STORE_WORD` at `pc` included. -/
def Obligations.StoredWordIsFetchedByTheNextStep : Prop :=
  ∀ (t n : RegIdx) (k : BitVec 9) (s s1 : State),
    (effAddr s n k = s.pc + 4#64 →
      (exec (.storeWord t n k) s = .next s1 → fetch s1 = .ok ((readReg s t).extractLsb' 0 32)) ∧
      (exec (.storeByte t n k) s = .next s1 →
        fetch s1 = .ok (BitVec.ofNat 32 ((readReg s t).toNat % 2 ^ 8))) ∧
      (exec (.storeHalf t n k) s = .next s1 →
        fetch s1 = .ok (BitVec.ofNat 32 ((readReg s t).toNat % 2 ^ 16)))) ∧
    (effAddr s n k = s.pc → exec (.storeWord t n k) s = .next s1 →
      fetch s1 = .ok ((readReg s t).extractLsb' 32 32))

/-- R32, R36, R41: the listed transactions of a completed instruction are made at accessible addresses,
each reads what memory then holds, they are at most two, and memory changes by them alone. -/
def Obligations.TransactionsAccountForMemory : Prop :=
  ∀ (i : Instr) (s t : State), exec i s = .next t →
    t.mem = applyTransactions (dataTransactions i s) s.mem ∧
    (dataTransactions i s).length ≤ 2 ∧
    ∀ tr ∈ dataTransactions i s,
      (∀ addr data, tr = .read addr data →
        Accessible s.params addr ∧ data = readWord s.mem addr) ∧
      ∀ addr data, tr = .write addr data → Accessible s.params addr ∧ readWord t.mem addr = data

/-! ## Control transfer -/

/-- R162. -/
def Obligations.BranchUncondAddsItsOffset : Prop :=
  (∀ w : Word, w.extractLsb' 26 6 = 0b000101#6 → decode w = .ok (.branchUncond (w.extractLsb' 0 26))) ∧
  ∀ (imm26 : BitVec 26) (s : State), ∃ t, exec (.branchUncond imm26) s = .next t ∧
    PcResult s t (s.pc + sext 28 (imm26.setWidth 64 <<< 2))

/-- R164: absolute, unmasked; a misaligned target stops the next step. -/
def Obligations.BranchRegJumpsToTheRegister : Prop :=
  (∀ w : Word, w.extractLsb' 24 8 = 0xD6#8 → decode w = .ok (.branchReg (w.extractLsb' 5 5))) ∧
  ∀ (n : RegIdx) (s : State), ∃ t, exec (.branchReg n) s = .next t ∧ PcResult s t (readReg s n) ∧
    (¬ Aligned (readReg s n) → StepDue s → step t = .fault (.misaligned (readReg s n)))

/-- R167 to R172: the six conditional branches, taken and not taken. -/
def Obligations.ConditionalBranchesTestNAndZ : Prop :=
  (∀ w : Word, w.extractLsb' 24 8 = 0x54#8 →
    (w.extractLsb' 0 4 = 0x0#4 → decode w = .ok (.branchCondEq (w.extractLsb' 5 19))) ∧
    (w.extractLsb' 0 4 = 0x1#4 → decode w = .ok (.branchCondNe (w.extractLsb' 5 19))) ∧
    (w.extractLsb' 0 4 = 0xC#4 → decode w = .ok (.branchCondGt (w.extractLsb' 5 19))) ∧
    (w.extractLsb' 0 4 = 0xB#4 → decode w = .ok (.branchCondLt (w.extractLsb' 5 19))) ∧
    (w.extractLsb' 0 4 = 0xA#4 → decode w = .ok (.branchCondGe (w.extractLsb' 5 19))) ∧
    (w.extractLsb' 0 4 = 0xD#4 → decode w = .ok (.branchCondLe (w.extractLsb' 5 19)))) ∧
  ∀ (imm19 : BitVec 19) (s : State) (target : Dword),
    target = s.pc + sext 21 (imm19.setWidth 64 <<< 2) →
    (∃ t, exec (.branchCondEq imm19) s = .next t ∧
      PcResult s t (if s.flags.z = true then target else s.pc + 4#64)) ∧
    (∃ t, exec (.branchCondNe imm19) s = .next t ∧
      PcResult s t (if s.flags.z = false then target else s.pc + 4#64)) ∧
    (∃ t, exec (.branchCondGt imm19) s = .next t ∧
      PcResult s t (if s.flags.n = false ∧ s.flags.z = false then target else s.pc + 4#64)) ∧
    (∃ t, exec (.branchCondLt imm19) s = .next t ∧
      PcResult s t (if s.flags.n = true then target else s.pc + 4#64)) ∧
    (∃ t, exec (.branchCondGe imm19) s = .next t ∧
      PcResult s t (if s.flags.n = false then target else s.pc + 4#64)) ∧
    ∃ t, exec (.branchCondLe imm19) s = .next t ∧
      PcResult s t (if s.flags.n = true ∨ s.flags.z = true then target else s.pc + 4#64)

/-- R166: after a compare that does not overflow, the predicates are the signed comparisons; after one
that does, `GE`/`LT` hold exactly when the signed comparison does not. -/
def Obligations.PredicatesAfterACompare : Prop :=
  ∀ x y : Dword,
    (condEq (addWithCarry x (~~~y) true).2 = true ↔ x = y) ∧
    (condNe (addWithCarry x (~~~y) true).2 = true ↔ x ≠ y) ∧
    ((addWithCarry x (~~~y) true).2.v = false →
      (condGe (addWithCarry x (~~~y) true).2 = true ↔ y.toInt ≤ x.toInt) ∧
      (condLt (addWithCarry x (~~~y) true).2 = true ↔ x.toInt < y.toInt) ∧
      (condGt (addWithCarry x (~~~y) true).2 = true ↔ y.toInt < x.toInt) ∧
      (condLe (addWithCarry x (~~~y) true).2 = true ↔ x.toInt ≤ y.toInt)) ∧
    ((addWithCarry x (~~~y) true).2.v = true →
      (condGe (addWithCarry x (~~~y) true).2 = true ↔ x.toInt < y.toInt) ∧
      (condLt (addWithCarry x (~~~y) true).2 = true ↔ y.toInt < x.toInt))

/-- R174 and R176: all 64 bits of the register, no flag. -/
def Obligations.CompareAndBranchTestsTheWholeRegister : Prop :=
  (∀ w : Word, w.extractLsb' 24 8 = 0xB4#8 →
    decode w = .ok (.cmpBranchZero (w.extractLsb' 0 5) (w.extractLsb' 5 19))) ∧
  (∀ w : Word, w.extractLsb' 24 8 = 0xB5#8 →
    decode w = .ok (.cmpBranchNonzero (w.extractLsb' 0 5) (w.extractLsb' 5 19))) ∧
  ∀ (r : RegIdx) (imm19 : BitVec 19) (s : State) (target : Dword),
    target = s.pc + sext 21 (imm19.setWidth 64 <<< 2) →
    (∃ t, exec (.cmpBranchZero r imm19) s = .next t ∧
      PcResult s t (if (readReg s r).toNat = 0 then target else s.pc + 4#64)) ∧
    ∃ t, exec (.cmpBranchNonzero r imm19) s = .next t ∧
      PcResult s t (if (readReg s r).toNat ≠ 0 then target else s.pc + 4#64)

/-- R18: only `BRANCH_REG` can take `pc` off a multiple of 4. -/
def Obligations.OnlyBranchRegCanMisalignPc : Prop :=
  ∀ s t : State, Aligned s.pc → step s = .next t → ¬ Aligned t.pc →
    ∃ n, decode (readWord s.mem s.pc) = .ok (.branchReg n) ∧ t.pc = readReg s n

/-- R16: every instruction but the ten control-transfer ones commits `pc + 4`, and so does an `INVALID`
word. -/
def Obligations.NextPcRule : Prop :=
  (∀ (i : Instr) (s t : State), isControlTransfer i = false → exec i s = .next t →
    t.pc = s.pc + 4#64) ∧
  ∀ s t : State, step s = .next t → decodeTag (readWord s.mem s.pc) = .invalid → t.pc = s.pc + 4#64

/-! ## HALT and INVALID -/

/-- R180: `run` is cleared, `pc + 4`, nothing else; and no step follows. -/
def Obligations.HaltClearsRun : Prop :=
  (∀ w : Word, w.extractLsb' 21 11 = 0x6A2#11 → w.extractLsb' 0 5 = 0#5 → decode w = .ok .halt) ∧
  (∀ w : Word, w.extractLsb' 21 11 = 0x6A2#11 → w.extractLsb' 0 5 ≠ 0#5 →
    decode w = .error (.invalid w)) ∧
  ∀ s : State, ∃ t, exec .halt s = .next t ∧ t.run = false ∧ t.pc = s.pc + 4#64 ∧ SameRegs s t ∧
    t.flags = s.flags ∧ SameMem s t ∧ t.invalidSeen = s.invalidSeen ∧ t.params = s.params ∧
    step t = .fault .halted

/-- An `INVALID` word is a no-op with a signal (R182). The recorded mark that no step clears is the one
R183 recommends, as log entry 5 has it; that under `stop` a further step answers `stoppedAfterInvalid`
is log entry 4. -/
def Obligations.InvalidWordIsANoOpWithASignal : Prop :=
  (∀ s t : State, step s = .next t → s.invalidSeen = true → t.invalidSeen = true) ∧
  ∀ s : State, StepDue s → Accessible s.params s.pc → decodeTag (readWord s.mem s.pc) = .invalid →
    invalidOut false s = true ∧
    ∃ t, step s = .next t ∧ t.pc = s.pc + 4#64 ∧ SameRegs s t ∧ t.flags = s.flags ∧ t.run = s.run ∧
      SameMem s t ∧ t.params = s.params ∧ t.invalidSeen = true ∧
      (s.params.invalidPolicy = .advance → StepDue t) ∧
      (s.params.invalidPolicy = .stop → step t = .fault .stoppedAfterInvalid)

/-- R183, R216: the mark after a step is the mark before it or the `invalid` output of the step, and no
step changes the parameters. -/
def Obligations.MarkRecordsTheInvalidSignal : Prop :=
  ∀ s t : State, step s = .next t →
    t.invalidSeen = (s.invalidSeen || invalidOut false s) ∧ t.params = s.params

/-! ## The step, the clock and reset -/

/-- R88, R89: a step runs the handler of the instruction the word at `pc` decodes to, on the state as it
is. -/
def Obligations.StepRunsTheDecodedInstruction : Prop :=
  ∀ (s : State) (i : Instr), StepDue s → Accessible s.params s.pc →
    decode (readWord s.mem s.pc) = .ok i → step s = exec i s

/-- R28: while `run = 0` there is no step, until reset. -/
def Obligations.HaltedCoreTakesNoStep : Prop :=
  ∀ s : State, s.run = false →
    step s = .fault .halted ∧ clockEdge false s = .fault .halted ∧ transactions false s = [] ∧
    ∃ t, clockEdge true s = .next t ∧ t.run = true

/-- R18, R88 line 1, R194, R195: a step due at a misaligned `pc`, or at one outside `MEM_DOMAIN`, stops
before the fetch. That no transaction is listed at a `pc` outside `MEM_DOMAIN`, where R195 says only that
there is no transition, is the model's convention, log entry 13. -/
def Obligations.BadPcStopsTheStepBeforeTheFetch : Prop :=
  ∀ s : State, StepDue s →
    (¬ Aligned s.pc → step s = .fault (.misaligned s.pc) ∧ transactions false s = []) ∧
    (Aligned s.pc → backed s.params s.pc = false →
      step s = .fault (.unbacked s.pc) ∧ transactions false s = [])

/-- R89, R191: with every address backed, a step due at an aligned `pc` gives a next state, except where
a load or store computes a misaligned address. -/
def Obligations.StepIsTotalUpToMisalignedData : Prop :=
  ∀ s : State, StepDue s → FullDomain s.params → Aligned s.pc →
    (∃ t, step s = .next t) ∨
    ∃ i n k, decode (readWord s.mem s.pc) = .ok i ∧ dataAddress i = some (n, k) ∧
      ¬ Aligned (effAddr s n k) ∧ step s = .fault (.misaligned (effAddr s n k))

/-- R210: the reset state, for every value of the parameters and every memory, and while `rst` is
asserted. -/
def Obligations.ResetStateOfTheSpec : Prop :=
  ∀ (p : Params) (m : Memory) (s : State),
    (∀ k, readReg (State.resetWith p m) k = 0#64) ∧
    (State.resetWith p m).flags = ⟨false, false, false, false⟩ ∧
    (State.resetWith p m).pc.toNat = 4 * p.resetPcWord.toNat ∧
    (State.resetWith p m).run = true ∧ (State.resetWith p m).mem = m ∧
    (∃ t, clockEdge true s = .next t ∧ (∀ k, readReg t k = 0#64) ∧
      t.flags = ⟨false, false, false, false⟩ ∧ t.pc.toNat = 4 * s.params.resetPcWord.toNat ∧
      t.run = true ∧ t.mem = s.mem) ∧
    invalidOut true s = false

/-- R211: reset alone leads out of the halted state and sets `run`, and nothing of the core's state
survives it. -/
def Obligations.ResetIsTheOnlyWayOutOfTheHaltedState : Prop :=
  (∀ (rst : Bool) (s t : State), clockEdge rst s = .next t → s.run = false → rst = true) ∧
  (∀ (i : Instr) (s t : State), exec i s = .next t → s.run = false → t.run = false) ∧
  ∀ s s' t t' : State, s.mem = s'.mem → s.params = s'.params → clockEdge true s = .next t →
    clockEdge true s' = .next t' →
    SameRegs t t' ∧ t.pc = t'.pc ∧ t.flags = t'.flags ∧ t.run = true ∧ t'.run = true

/-- The model's own values at reset (DESIGN CHOICE, log entries 1 to 5): `RESET_PC = 0x1000`, nothing
listed in memory and an unlisted byte 0, every address backed, `advance`, no mark. -/
def Obligations.ResetValuesTheModelChose : Prop :=
  State.reset.pc = 0x1000#64 ∧ (∀ a, readByte State.reset.mem a = 0#8) ∧
  FullDomain State.reset.params ∧ State.reset.params.invalidPolicy = .advance ∧
  State.reset.invalidSeen = false

/-- The reset memory is in canonical form. -/
def Obligations.ResetMemoryIsCanonical : Prop := State.reset.Inv

/-- R33: every step, and every clock edge, keeps the canonical form of memory. -/
def Obligations.EveryStepKeepsMemoryCanonical : Prop :=
  ∀ (rst : Bool) (s t : State), s.Inv → clockEdge rst s = .next t → t.Inv

/-- R33: memories in canonical form that read alike at every byte are the same data. -/
def Obligations.CanonicalMemoriesReadingAlikeAreEqual : Prop :=
  ∀ m m' : Memory, m.wf → m'.wf → (∀ a, a < 2 ^ 64 → readByte m a = readByte m' a) → m = m'

/-! ## Whole-machine rules -/

/-- R25 and R23: `V` is read by no instruction; `C` by `ADD_CARRY_FLAGS` only; `N` and `Z` by the
conditional branches only, as listed: setting a flag that an instruction does not read changes nothing of
its answer but that flag. And the listed ones do read it: the two settings give different answers,
whatever the flag is set to after. A branch to `pc + 4` (`imm19 = 1`) has one answer, taken or not; `GT`
and `LE` are decided by one flag alone when the other is 1. -/
def Obligations.FlagReadersAreExactlyTheListed : Prop :=
  (∀ (i : Instr) (s : State) (b b' : Bool),
    mapNext (putV b') (exec i (putV b s)) = mapNext (putV b') (exec i s) ∧
    (i.tag ≠ .addCarryFlags → mapNext (putC b') (exec i (putC b s)) = mapNext (putC b') (exec i s)) ∧
    (i.tag ∉ [.branchCondGe, .branchCondLt, .branchCondGt, .branchCondLe] →
      mapNext (putN b') (exec i (putN b s)) = mapNext (putN b') (exec i s)) ∧
    (i.tag ∉ [.branchCondEq, .branchCondNe, .branchCondGt, .branchCondLe] →
      mapNext (putZ b') (exec i (putZ b s)) = mapNext (putZ b') (exec i s))) ∧
  (∀ (d n m : RegIdx) (s : State) (b' : Bool),
    mapNext (putC b') (exec (.addCarryFlags d n m) (putC true s)) ≠
      mapNext (putC b') (exec (.addCarryFlags d n m) (putC false s))) ∧
  ∀ (imm19 : BitVec 19) (s : State) (b' : Bool),
    (∀ i ∈ [Instr.branchCondGe imm19, .branchCondLt imm19],
      mapNext (putN b') (exec i (putN true s)) ≠ mapNext (putN b') (exec i (putN false s)) ↔
        imm19 ≠ 1#19) ∧
    (∀ i ∈ [Instr.branchCondEq imm19, .branchCondNe imm19],
      mapNext (putZ b') (exec i (putZ true s)) ≠ mapNext (putZ b') (exec i (putZ false s)) ↔
        imm19 ≠ 1#19) ∧
    ∀ i ∈ [Instr.branchCondGt imm19, .branchCondLe imm19],
      (mapNext (putN b') (exec i (putN true s)) ≠ mapNext (putN b') (exec i (putN false s)) ↔
        imm19 ≠ 1#19 ∧ s.flags.z = false) ∧
      (mapNext (putZ b') (exec i (putZ true s)) ≠ mapNext (putZ b') (exec i (putZ false s)) ↔
        imm19 ≠ 1#19 ∧ s.flags.n = false)

/-- R24: no instruction outside the list writes a flag, and `AND_FLAGS` writes neither `C` nor `V`. And
the listed ones write theirs: what a written flag is after does not depend on what the flags were before,
but for the `C` that `ADD_CARRY_FLAGS` adds. -/
def Obligations.FlagWritersAreExactlyTheListed : Prop :=
  (∀ (i : Instr) (s t : State), exec i s = .next t →
    (writesNZCV i = false → i.tag ≠ .andFlags → t.flags = s.flags) ∧
    (i.tag = .andFlags → t.flags.c = s.flags.c ∧ t.flags.v = s.flags.v)) ∧
  ∀ (i : Instr) (s : State) (f : Flags),
    (writesNZCV i = true → (i.tag = .addCarryFlags → f.c = s.flags.c) →
      ∃ t u, exec i s = .next t ∧ exec i (setFlags s f) = .next u ∧ t.flags = u.flags) ∧
    (i.tag = .andFlags → ∃ t u, exec i s = .next t ∧ exec i (setFlags s f) = .next u ∧
      t.flags.n = u.flags.n ∧ t.flags.z = u.flags.z)

/-- An instruction writes at most its one destination register: R13, marked as derived, and R22. -/
def Obligations.AtMostTheDestinationRegisterIsWritten : Prop :=
  ∀ (i : Instr) (s t : State), exec i s = .next t →
    ∀ k, destination i ≠ some k → readReg t k = readReg s k

/-- R20, R196: stores alone change memory, and only in the words they address. -/
def Obligations.OnlyStoresChangeMemory : Prop :=
  ∀ (i : Instr) (s t : State), exec i s = .next t →
    (i.tag ∉ [.storeWord, .storeByte, .storeHalf] → t.mem = s.mem) ∧
    ∀ n k, dataAddress i = some (n, k) → ∀ a, ¬ InWord (effAddr s n k) a →
      ¬ (i.tag = .storeWord ∧ InWord (effAddr s n k + 4#64) a) → readByte t.mem a = readByte s.mem a

/-- R67, R68: what the assembler accepts is well formed, and its canonical word decodes to it. -/
def Obligations.AssembledWordsDecodeToTheirInstruction : Prop :=
  ∀ (a : Asm) (i : Instr), asmInstr a = some i →
    i.wellFormed = true ∧ ∃ w, assemble a = some w ∧ decode w = .ok i

/-- R67: the operands as written are the operands as executed, for every syntax form with operands in
range: registers, the four immediates, shift amounts, branch offsets. -/
def Obligations.AssembledOperandsMeanWhatIsWritten : Prop :=
  (∀ d n m : RegIdx,
    asmInstr (.addReg d n m) = some (.addReg d n m) ∧
    asmInstr (.addRegFlags d n m) = some (.addRegFlags d n m) ∧
    (d ≠ 31#5 → asmInstr (.subRegFlags d n m) = some (.subRegFlags d n m)) ∧
    asmInstr (.addCarryFlags d n m) = some (.addCarryFlags d n m) ∧
    asmInstr (.andFlags d n m) = some (.andFlags d n m) ∧
    asmInstr (.eor d n m) = some (.eor d n m) ∧
    asmInstr (.orr d n m) = some (.orr d n m) ∧
    asmInstr (.multiply d n m) = some (.multiply d n m) ∧
    asmInstr (.cmpReg n m) = some (.cmpReg n m) ∧
    asmInstr (.branchReg n) = some (.branchReg n) ∧
    asmInstr .halt = some .halt) ∧
  (∀ (d n : RegIdx) (k : Nat) (l : Bool), k ≤ 4095 → ∃ sh f,
    asmInstr (.addImm d n ⟨k, l⟩) = some (.addImm d n sh f) ∧
    asmInstr (.addImmFlags d n ⟨k, l⟩) = some (.addImmFlags d n sh f) ∧
    (d ≠ 31#5 → asmInstr (.subImmFlags d n ⟨k, l⟩) = some (.subImmFlags d n sh f)) ∧
    asmInstr (.cmpImm n ⟨k, l⟩) = some (.cmpImm n sh f) ∧
    (immOperand sh f).toNat = (if l then k * 4096 else k)) ∧
  (∀ (d : RegIdx) (k : Nat), k ≤ 65535 →
    ∃ f, asmInstr (.moveWideImm d k) = some (.moveWideImm d f) ∧ f.toNat = k) ∧
  (∀ (d n : RegIdx) (a : Nat), 1 ≤ a → a ≤ 64 →
    ∃ immr, asmInstr (.shiftLeft d n a) = some (.shiftLeft d n immr) ∧ leftAmount immr = a) ∧
  (∀ (d n : RegIdx) (a : Nat), a ≤ 63 →
    ∃ immr, asmInstr (.shiftRight d n a) = some (.shiftRight d n immr) ∧ rightAmount immr = a) ∧
  (∀ (t n : RegIdx) (k : Nat), k ≤ 511 → ∃ f,
    asmInstr (.storeWord t n k) = some (.storeWord t n f) ∧
    asmInstr (.loadWord t n k) = some (.loadWord t n f) ∧
    asmInstr (.storeByte t n k) = some (.storeByte t n f) ∧
    asmInstr (.loadByte t n k) = some (.loadByte t n f) ∧
    asmInstr (.storeHalf t n k) = some (.storeHalf t n f) ∧
    asmInstr (.loadHalf t n k) = some (.loadHalf t n f) ∧
    ∀ s : State, effAddr s n f = readReg s n + BitVec.ofNat 64 k) ∧
  (∀ off : Int, off % 4 = 0 → -2 ^ 27 ≤ off → off < 2 ^ 27 →
    ∃ f, asmInstr (.branchUncond off) = some (.branchUncond f) ∧ (offset26 f).toInt = off) ∧
  ∀ (t : RegIdx) (off : Int), off % 4 = 0 → -2 ^ 20 ≤ off → off < 2 ^ 20 → ∃ f,
    asmInstr (.branchCondEq off) = some (.branchCondEq f) ∧
    asmInstr (.branchCondNe off) = some (.branchCondNe f) ∧
    asmInstr (.branchCondGt off) = some (.branchCondGt f) ∧
    asmInstr (.branchCondLt off) = some (.branchCondLt f) ∧
    asmInstr (.branchCondGe off) = some (.branchCondGe f) ∧
    asmInstr (.branchCondLe off) = some (.branchCondLe f) ∧
    asmInstr (.cmpBranchZero t off) = some (.cmpBranchZero t f) ∧
    asmInstr (.cmpBranchNonzero t off) = some (.cmpBranchNonzero t f) ∧
    (offset19 f).toInt = off
end

