-- ==== Sys2Proof/Laws/Decode.lean ====
section
/-! SUPPORT. The fields of a word as arithmetic on its number, the words of the encoder as numbers, and
the decoder's stages told apart by the primary byte (R59). -/

namespace Sys2Proof

theorem toNat_slice (w : Word) (lo len : Nat) : (slice w lo len).toNat = w.toNat / 2 ^ lo % 2 ^ len := by
  simp [slice, BitVec.extractLsb'_toNat, Nat.shiftRight_eq_div_pow]

theorem toNat_append_eq {n m : Nat} (x : BitVec n) (y : BitVec m) :
    (x ++ y).toNat = x.toNat * 2 ^ m + y.toNat := by
  rw [BitVec.toNat_append, ← Nat.shiftLeft_add_eq_or_of_lt y.isLt, Nat.shiftLeft_eq]

/-- A slice is a field when the numbers say so. -/
theorem slice_eq_of_toNat {w : Word} {lo len : Nat} {v : BitVec len}
    (h : w.toNat / 2 ^ lo % 2 ^ len = v.toNat) : slice w lo len = v :=
  BitVec.eq_of_toNat_eq ((toNat_slice w lo len).trans h)

theorem toNat_encodeR (p : BitVec 8) (d n m : RegIdx) :
    (encodeR p d n m).toNat = p.toNat * 2 ^ 24 + m.toNat * 2 ^ 16 + n.toNat * 2 ^ 5 + d.toNat := by
  rw [show (encodeR p d n m).toNat = _ from toNat_append_eq (p ++ 0#3 ++ m ++ 0#6 ++ n) d]
  simp only [toNat_append_eq, BitVec.toNat_ofNat]
  omega

theorem toNat_encodeI (p : BitVec 8) (d n : RegIdx) (sh : BitVec 2) (imm12 : BitVec 12) :
    (encodeI p d n sh imm12).toNat =
      p.toNat * 2 ^ 24 + sh.toNat * 2 ^ 22 + imm12.toNat * 2 ^ 10 + n.toNat * 2 ^ 5 + d.toNat := by
  rw [show (encodeI p d n sh imm12).toNat = _ from toNat_append_eq (p ++ sh ++ imm12 ++ n) d]
  simp only [toNat_append_eq]
  omega

theorem toNat_encodeW (d : RegIdx) (imm16 : BitVec 16) :
    (encodeW d imm16).toNat = 0xD2 * 2 ^ 24 + imm16.toNat * 2 ^ 5 + d.toNat := by
  rw [show (encodeW d imm16).toNat = _ from toNat_append_eq (0xD2#8 ++ 0#3 ++ imm16) d]
  simp only [toNat_append_eq, BitVec.toNat_ofNat]
  omega

theorem toNat_encodeS (imms : BitVec 6) (d n : RegIdx) (immr : BitVec 6) :
    (encodeS imms d n immr).toNat =
      0xD3 * 2 ^ 24 + immr.toNat * 2 ^ 16 + imms.toNat * 2 ^ 10 + n.toNat * 2 ^ 5 + d.toNat := by
  rw [show (encodeS imms d n immr).toNat = _ from
    toNat_append_eq (0xD3#8 ++ 0#2 ++ immr ++ imms ++ n) d]
  simp only [toNat_append_eq, BitVec.toNat_ofNat]
  omega

theorem toNat_encodeM (p : BitVec 8) (opc : BitVec 2) (t n : RegIdx) (imm9 : BitVec 9) :
    (encodeM p opc t n imm9).toNat =
      p.toNat * 2 ^ 24 + opc.toNat * 2 ^ 22 + imm9.toNat * 2 ^ 12 + n.toNat * 2 ^ 5 + t.toNat := by
  rw [show (encodeM p opc t n imm9).toNat = _ from
    toNat_append_eq (p ++ opc ++ 0#1 ++ imm9 ++ 0#2 ++ n) t]
  simp only [toNat_append_eq, BitVec.toNat_ofNat]
  omega

theorem toNat_encodeB (imm26 : BitVec 26) : (encodeB imm26).toNat = 5 * 2 ^ 26 + imm26.toNat :=
  toNat_append_eq 0b000101#6 imm26

theorem toNat_encodeC (cond : BitVec 4) (imm19 : BitVec 19) :
    (encodeC cond imm19).toNat = 0x54 * 2 ^ 24 + imm19.toNat * 2 ^ 5 + cond.toNat := by
  rw [show (encodeC cond imm19).toNat = _ from toNat_append_eq (0x54#8 ++ imm19 ++ 0#1) cond]
  simp only [toNat_append_eq, BitVec.toNat_ofNat]
  omega

theorem toNat_encodeZ (p : BitVec 8) (t : RegIdx) (imm19 : BitVec 19) :
    (encodeZ p t imm19).toNat = p.toNat * 2 ^ 24 + imm19.toNat * 2 ^ 5 + t.toNat := by
  rw [show (encodeZ p t imm19).toNat = _ from toNat_append_eq (p ++ imm19) t]
  simp only [toNat_append_eq]
  omega

theorem toNat_encodeJ (n : RegIdx) : (encodeJ n).toNat = 0xD6 * 2 ^ 24 + n.toNat * 2 ^ 5 := by
  rw [show (encodeJ n).toNat = _ from toNat_append_eq (0xD6#8 ++ 0#14 ++ n) 0#5]
  simp only [toNat_append_eq, BitVec.toNat_ofNat]
  omega

theorem toNat_primary (w : Word) : (primary w).toNat = w.toNat / 2 ^ 24 := by
  have := w.isLt
  rw [primary, toNat_slice]
  omega

/-- The first stage's words have the primary byte 0xD4 (R59). -/
theorem primary_of_halt {w : Word} (h : slice w 21 11 = 0x6A2#11) : primary w = 0xD4#8 := by
  have h := congrArg BitVec.toNat h
  rw [toNat_slice] at h
  apply BitVec.eq_of_toNat_eq
  rw [toNat_primary]
  simp at h ⊢
  omega

/-- The second stage's words have a primary byte of 0x14 to 0x17 (R59). -/
theorem primary_of_branch {w : Word} (h : slice w 26 6 = 0b000101#6) :
    primary w = 0x14#8 ∨ primary w = 0x15#8 ∨ primary w = 0x16#8 ∨ primary w = 0x17#8 := by
  have h := congrArg BitVec.toNat h
  rw [toNat_slice] at h
  simp only [← BitVec.toNat_inj, toNat_primary]
  simp at h ⊢
  omega

/-- A word that no earlier stage takes is decided by the fourth (R58, R59). -/
theorem decodeTag_of_primary {w : Word}
    (h : primary w ≠ 0xD4#8 ∧ primary w ≠ 0x14#8 ∧ primary w ≠ 0x15#8 ∧ primary w ≠ 0x16#8 ∧
      primary w ≠ 0x17#8 ∧ primary w ≠ 0x54#8) : decodeTag w = tagOfPrimary w := by
  obtain ⟨h1, h2, h3, h4, h5, h6⟩ := h
  have hh : ¬ (slice w 21 11 = 0x6A2#11 ∧ fieldD w = 0#5) := fun e => h1 (primary_of_halt e.1)
  have hb : slice w 26 6 ≠ 0b000101#6 := fun e => by
    rcases primary_of_branch e with e | e | e | e <;> contradiction
  simp only [decodeTag, if_neg hh, if_neg hb, if_neg h6]

/-- A word of the third stage (R58). -/
theorem decodeTag_of_cond {w : Word} (h : primary w = 0x54#8) :
    decodeTag w = tagOfCond (fieldCond w) := by
  have hh : ¬ (slice w 21 11 = 0x6A2#11 ∧ fieldD w = 0#5) := fun e => by
    have := primary_of_halt e.1
    rw [h] at this
    exact absurd this (by decide)
  have hb : slice w 26 6 ≠ 0b000101#6 := fun e => by
    rcases primary_of_branch e with e | e | e | e <;> rw [h] at e <;> exact absurd e (by decide)
  simp only [decodeTag, if_neg hh, if_neg hb, if_pos h]

/-- A word of the second stage (R58). -/
theorem decodeTag_of_branch {w : Word} (h : slice w 26 6 = 0b000101#6) :
    decodeTag w = .branchUncond := by
  have hh : ¬ (slice w 21 11 = 0x6A2#11 ∧ fieldD w = 0#5) := fun e => by
    have := primary_of_halt e.1
    rcases primary_of_branch h with e | e | e | e <;> rw [this] at e <;> exact absurd e (by decide)
  simp only [decodeTag, if_neg hh, if_pos h]

/-- The words of a tag, by their fields (R58). -/
def WordsOf (w : Word) : Tag → Prop
  | .halt => slice w 21 11 = 0x6A2#11 ∧ fieldD w = 0#5
  | .branchUncond => slice w 26 6 = 0b000101#6
  | .branchCondEq => primary w = 0x54#8 ∧ fieldCond w = 0x0#4
  | .branchCondNe => primary w = 0x54#8 ∧ fieldCond w = 0x1#4
  | .branchCondGt => primary w = 0x54#8 ∧ fieldCond w = 0xC#4
  | .branchCondLt => primary w = 0x54#8 ∧ fieldCond w = 0xB#4
  | .branchCondGe => primary w = 0x54#8 ∧ fieldCond w = 0xA#4
  | .branchCondLe => primary w = 0x54#8 ∧ fieldCond w = 0xD#4
  | .addRegFlags => primary w = 0xAB#8
  | .addImmFlags => primary w = 0xB1#8
  | .cmpReg => primary w = 0xEB#8 ∧ fieldD w = 31#5
  | .subRegFlags => primary w = 0xEB#8 ∧ fieldD w ≠ 31#5
  | .cmpImm => primary w = 0xF1#8 ∧ fieldD w = 31#5
  | .subImmFlags => primary w = 0xF1#8 ∧ fieldD w ≠ 31#5
  | .andFlags => primary w = 0xEA#8
  | .eor => primary w = 0xCA#8
  | .orr => primary w = 0xAA#8
  | .branchReg => primary w = 0xD6#8
  | .shiftRight => primary w = 0xD3#8 ∧ fieldImms w = 0x3F#6
  | .shiftLeft => primary w = 0xD3#8 ∧ fieldImms w ≠ 0x3F#6
  | .storeWord => primary w = 0xF8#8 ∧ fieldSh w = 0#2
  | .loadWord => primary w = 0xF8#8 ∧ fieldSh w = 1#2
  | .storeByte => primary w = 0x38#8 ∧ fieldSh w = 0#2
  | .loadByte => primary w = 0x38#8 ∧ fieldSh w = 1#2
  | .storeHalf => primary w = 0x78#8 ∧ fieldSh w = 0#2
  | .loadHalf => primary w = 0x78#8 ∧ fieldSh w = 1#2
  | .moveWideImm => primary w = 0xD2#8
  | .addImm => primary w = 0x91#8
  | .addReg => primary w = 0x8B#8
  | .multiply => primary w = 0x9B#8
  | .cmpBranchZero => primary w = 0xB4#8
  | .cmpBranchNonzero => primary w = 0xB5#8
  | .addCarryFlags => primary w = 0xBA#8
  | .invalid => True

theorem wordsOf_ite {w : Word} {c : Prop} [Decidable c] {a b : Tag} (ha : c → WordsOf w a)
    (hb : ¬ c → WordsOf w b) : WordsOf w (if c then a else b) := by
  split
  · exact ha ‹_›
  · exact hb ‹_›

theorem wordsOf_tagOfCond {w : Word} (h : primary w = 0x54#8) : WordsOf w (tagOfCond (fieldCond w)) :=
  wordsOf_ite (fun e => ⟨h, e⟩) fun _ => wordsOf_ite (fun e => ⟨h, e⟩) fun _ =>
  wordsOf_ite (fun e => ⟨h, e⟩) fun _ => wordsOf_ite (fun e => ⟨h, e⟩) fun _ =>
  wordsOf_ite (fun e => ⟨h, e⟩) fun _ => wordsOf_ite (fun e => ⟨h, e⟩) fun _ => trivial

theorem wordsOf_tagOfOpc {w : Word} {store load : Tag} (hs : fieldSh w = 0#2 → WordsOf w store)
    (hl : fieldSh w = 1#2 → WordsOf w load) : WordsOf w (tagOfOpc (fieldSh w) store load) :=
  wordsOf_ite hs fun _ => wordsOf_ite hl fun _ => trivial

theorem wordsOf_tagOfPrimary (w : Word) : WordsOf w (tagOfPrimary w) :=
  wordsOf_ite (fun h => h) fun _ => wordsOf_ite (fun h => h) fun _ =>
  wordsOf_ite (fun h => wordsOf_ite (fun e => ⟨h, e⟩) fun e => ⟨h, e⟩) fun _ =>
  wordsOf_ite (fun h => wordsOf_ite (fun e => ⟨h, e⟩) fun e => ⟨h, e⟩) fun _ =>
  wordsOf_ite (fun h => h) fun _ => wordsOf_ite (fun h => h) fun _ => wordsOf_ite (fun h => h) fun _ =>
  wordsOf_ite (fun h => h) fun _ =>
  wordsOf_ite (fun h => wordsOf_ite (fun e => ⟨h, e⟩) fun e => ⟨h, e⟩) fun _ =>
  wordsOf_ite (fun h => wordsOf_tagOfOpc (fun e => ⟨h, e⟩) fun e => ⟨h, e⟩) fun _ =>
  wordsOf_ite (fun h => wordsOf_tagOfOpc (fun e => ⟨h, e⟩) fun e => ⟨h, e⟩) fun _ =>
  wordsOf_ite (fun h => wordsOf_tagOfOpc (fun e => ⟨h, e⟩) fun e => ⟨h, e⟩) fun _ =>
  wordsOf_ite (fun h => h) fun _ => wordsOf_ite (fun h => h) fun _ => wordsOf_ite (fun h => h) fun _ =>
  wordsOf_ite (fun h => h) fun _ => wordsOf_ite (fun h => h) fun _ => wordsOf_ite (fun h => h) fun _ =>
  wordsOf_ite (fun h => h) fun _ => trivial

/-- A word is one of its tag's words. -/
theorem wordsOf_decodeTag (w : Word) : WordsOf w (decodeTag w) := by
  exact wordsOf_ite (fun h => h) fun _ => wordsOf_ite (fun h => h) fun _ =>
    wordsOf_ite (fun h => wordsOf_tagOfCond h) fun _ => wordsOf_tagOfPrimary w

/-- The words of an executable tag are exactly those the decoder gives it (R58, R59). -/
theorem decodeTag_eq_iff {w : Word} {t : Tag} (ht : t ≠ .invalid) : decodeTag w = t ↔ WordsOf w t := by
  refine ⟨fun h => h ▸ wordsOf_decodeTag w, fun h => ?_⟩
  cases t
  case invalid => exact absurd rfl ht
  case halt => exact if_pos h
  case branchUncond => exact decodeTag_of_branch h
  case branchCondEq | branchCondNe | branchCondGt | branchCondLt | branchCondGe | branchCondLe =>
    rw [decodeTag_of_cond h.1, h.2]; rfl
  case cmpReg | cmpImm | shiftRight =>
    rw [decodeTag_of_primary (by rw [h.1]; decide), tagOfPrimary, h.1, h.2]; rfl
  case subRegFlags | subImmFlags | shiftLeft =>
    rw [decodeTag_of_primary (by rw [h.1]; decide), tagOfPrimary, h.1]
    simp only [BitVec.reduceEq, if_false, if_true, if_neg h.2]
  case storeWord | loadWord | storeByte | loadByte | storeHalf | loadHalf =>
    rw [decodeTag_of_primary (by rw [h.1]; decide), tagOfPrimary, h.1, h.2]; rfl
  all_goals
    rw [decodeTag_of_primary (by rw [show primary w = _ from h]; decide), tagOfPrimary,
      show primary w = _ from h]
    rfl

theorem decode_of_tag {w : Word} {t : Tag} (h : decodeTag w = t) : decode w = fieldsOf t w := by
  rw [decode, h]

end Sys2Proof
end

