-- ==== Sys2Proof/Laws/Memory.lean ====
section
/-! SUPPORT. The laws of memory: a read after a write, at a byte and at a word, on any list; and that
every memory operation keeps the canonical form. -/

namespace Sys2Proof.Machine

open Sys2Proof

theorem readByte_dropCell (m : Memory) (a b : Nat) :
    readByte (dropCell m a) b = if b = a then Config.unlistedByte else readByte m b := by
  induction m with
  | nil => simp [dropCell, readByte]
  | cons e m ih =>
    obtain ⟨k, v⟩ := e
    have ih' : readByte (m.filter fun e => e.1 != a) b = _ := ih
    by_cases hk : k = a
    · subst hk
      have e : dropCell ((k, v) :: m) k = dropCell m k := by simp [dropCell]
      rw [e, ih]
      split
      · rfl
      · simp [readByte, Ne.symm ‹_›]
    · by_cases hb : k = b
      · subst hb; simp [dropCell, hk, readByte]
      · simp [dropCell, hk, readByte, hb, ih']

theorem readByte_insertCell (a : Nat) (v : Byte) (m : Memory) (h : ∀ e ∈ m, e.1 ≠ a) (b : Nat) :
    readByte (insertCell a v m) b = if b = a then v else readByte m b := by
  induction m with
  | nil => simp [insertCell, readByte, eq_comm (a := a)]
  | cons e m ih =>
    obtain ⟨k, w⟩ := e
    have hk : k ≠ a := h (k, w) (by simp)
    have ih := ih fun e he => h e (by simp [he])
    by_cases hlt : a < k
    · simp [insertCell, hlt, readByte, eq_comm (a := a)]
    · by_cases hb : k = b
      · subst hb; simp [insertCell, hlt, readByte, hk]
      · simp [insertCell, hlt, readByte, hb, ih]

theorem dropCell_ne (m : Memory) (a : Nat) : ∀ e ∈ dropCell m a, e.1 ≠ a := by
  simp [dropCell]

/-- A byte read after a byte write. -/
theorem readByte_writeByte (m : Memory) (a : Nat) (v : Byte) (b : Nat) :
    readByte (writeByte m a v) b = if b = a then v else readByte m b := by
  unfold writeByte
  split
  · subst_vars; exact readByte_dropCell m a b
  · rw [readByte_insertCell a v _ (dropCell_ne m a), readByte_dropCell]
    split <;> rfl

theorem dropCell_wf {m : Memory} (h : m.wf) (a : Nat) : (dropCell m a).wf :=
  ⟨h.1.filter _, fun e he => h.2 e (List.mem_of_mem_filter he)⟩

theorem mem_insertCell {a : Nat} {v : Byte} {m : Memory} {e : Host.Cell} :
    e ∈ insertCell a v m ↔ e = (a, v) ∨ e ∈ m := by
  induction m with
  | nil => simp [insertCell]
  | cons f m ih =>
    obtain ⟨k, w⟩ := f
    simp only [insertCell]
    split <;> simp [ih]
    tauto

theorem insertCell_wf {m : Memory} (h : m.wf) {a : Nat} {v : Byte} (hv : v ≠ Config.unlistedByte)
    (ha : a < 2 ^ 64) (hm : ∀ e ∈ m, e.1 ≠ a) : (insertCell a v m).wf := by
  constructor
  · induction m with
    | nil => simp [insertCell]
    | cons f m ih =>
      obtain ⟨k, w⟩ := f
      have hk : k ≠ a := hm (k, w) (by simp)
      obtain ⟨h1, h2⟩ := h
      rw [List.pairwise_cons] at h1
      simp only [insertCell]
      split
      · refine List.pairwise_cons.2 ⟨fun e he => ?_, List.pairwise_cons.2 h1⟩
        rcases List.mem_cons.1 he with rfl | he
        · assumption
        · exact lt_trans ‹_› (h1.1 e he)
      · refine List.pairwise_cons.2 ⟨fun e he => ?_, ih ⟨h1.2, fun e he => h2 e (by simp [he])⟩
          fun e he => hm e (by simp [he])⟩
        rcases mem_insertCell.1 he with rfl | he
        · simp only; omega
        · exact h1.1 e he
  · intro e he
    rcases mem_insertCell.1 he with rfl | he
    · exact ⟨hv, ha⟩
    · exact h.2 e he

/-- A byte write keeps the canonical form. -/
theorem writeByte_wf {m : Memory} (h : m.wf) {a : Nat} (ha : a < 2 ^ 64) (v : Byte) :
    (writeByte m a v).wf := by
  unfold writeByte
  split
  · exact dropCell_wf h a
  · exact insertCell_wf (dropCell_wf h a) ‹_› ha (dropCell_ne m a)

theorem byteAddr_lt (addr : Dword) (k : Nat) : byteAddr addr k < 2 ^ 64 := (addr + _).isLt

/-- A word write keeps the canonical form. -/
theorem writeWord_wf {m : Memory} (h : m.wf) (addr : Dword) (v : Word) : (writeWord m addr v).wf :=
  writeByte_wf (writeByte_wf (writeByte_wf (writeByte_wf h (byteAddr_lt _ _) _) (byteAddr_lt _ _) _)
    (byteAddr_lt _ _) _) (byteAddr_lt _ _) _

/-- The four bytes of a word have four addresses, at every address. -/
theorem byteAddr_inj (addr : Dword) {j k : Nat} (hj : j < 4) (hk : k < 4)
    (h : byteAddr addr j = byteAddr addr k) : j = k := by
  simp only [byteAddr, BitVec.toNat_add, BitVec.toNat_ofNat] at h
  have := addr.isLt
  omega

/-- A byte read after a word write. -/
theorem readByte_writeWord (m : Memory) (addr : Dword) (v : Word) (a : Nat) :
    readByte (writeWord m addr v) a =
      if a = byteAddr addr 3 then v.extractLsb' 24 8
      else if a = byteAddr addr 2 then v.extractLsb' 16 8
      else if a = byteAddr addr 1 then v.extractLsb' 8 8
      else if a = byteAddr addr 0 then v.extractLsb' 0 8
      else readByte m a := by
  simp only [writeWord, readByte_writeByte]

/-- A byte outside the written word reads as before. -/
theorem readByte_writeWord_outside (m : Memory) (addr : Dword) (v : Word) (a : Nat)
    (h : ∀ k, k < 4 → a ≠ byteAddr addr k) : readByte (writeWord m addr v) a = readByte m a := by
  simp [readByte_writeWord, h 0, h 1, h 2, h 3]

theorem word_of_bytes (v : Word) :
    v.extractLsb' 24 8 ++ v.extractLsb' 16 8 ++ v.extractLsb' 8 8 ++ v.extractLsb' 0 8 = v := by
  rw [BitVec.extractLsb'_append_extractLsb'_eq_extractLsb' (by rfl),
    BitVec.extractLsb'_append_extractLsb'_eq_extractLsb' (by rfl),
    BitVec.extractLsb'_append_extractLsb'_eq_extractLsb' (by rfl)]
  exact BitVec.extractLsb'_eq_self

/-- A word read after a write of it. -/
@[simp] theorem readWord_writeWord_same (m : Memory) (addr : Dword) (v : Word) :
    readWord (writeWord m addr v) addr = v := by
  have h : ∀ {j k : Nat}, j < 4 → k < 4 → j ≠ k → byteAddr addr j ≠ byteAddr addr k :=
    fun hj hk hne e => hne (byteAddr_inj addr hj hk e)
  simp [readWord, readByte_writeWord, h (j := 2) (k := 3), h (j := 1) (k := 3), h (j := 1) (k := 2),
    h (j := 0) (k := 3), h (j := 0) (k := 2), h (j := 0) (k := 1)]
  exact word_of_bytes v

/-- Two words share no byte when neither lies within three bytes of the other. -/
def Apart (a b : Dword) : Prop := ∀ j k, j < 4 → k < 4 → byteAddr a j ≠ byteAddr b k

theorem apart_symm {a b : Dword} (h : Apart a b) : Apart b a := fun j k hj hk e => h k j hk hj e.symm

/-- Two different multiples of 4 are apart. -/
theorem apart_of_aligned {a b : Dword} (ha : a.toNat % 4 = 0) (hb : b.toNat % 4 = 0) (h : a ≠ b) :
    Apart a b := by
  intro j k hj hk e
  apply h
  apply BitVec.eq_of_toNat_eq
  simp only [byteAddr, BitVec.toNat_add, BitVec.toNat_ofNat] at e
  have := a.isLt
  have := b.isLt
  omega

/-- The two words of a 64-bit datum are apart, at every address. -/
theorem apart_next (a : Dword) : Apart a (a + 4#64) := by
  intro j k hj hk e
  simp only [byteAddr, BitVec.toNat_add, BitVec.toNat_ofNat] at e
  have := a.isLt
  omega

/-- A word read after the write of a word apart from it. -/
theorem readWord_writeWord_apart (m : Memory) {a b : Dword} (v : Word) (h : Apart a b) :
    readWord (writeWord m b v) a = readWord m a := by
  have h' : ∀ j, j < 4 → readByte (writeWord m b v) (byteAddr a j) = readByte m (byteAddr a j) :=
    fun j hj => readByte_writeWord_outside m b v _ fun k hk => h j k hj hk
  simp [readWord, h']

end Sys2Proof.Machine
end

