-- ==== Sys2Proof/Laws/State.lean ====
section
/-! SUPPORT. One lemma per field per update of the state, and what a register reads after a write. -/

namespace Sys2Proof.Machine

open Sys2Proof

@[simp] theorem setReg_x (s : State) (d : RegIdx) (v : Dword) : (setReg s d v).x = s.x.set d.toNat v d.isLt := rfl
@[simp] theorem setReg_pc (s : State) (d : RegIdx) (v : Dword) : (setReg s d v).pc = s.pc := rfl
@[simp] theorem setReg_flags (s : State) (d : RegIdx) (v : Dword) : (setReg s d v).flags = s.flags := rfl
@[simp] theorem setReg_run (s : State) (d : RegIdx) (v : Dword) : (setReg s d v).run = s.run := rfl
@[simp] theorem setReg_mem (s : State) (d : RegIdx) (v : Dword) : (setReg s d v).mem = s.mem := rfl
@[simp] theorem setReg_invalidSeen (s : State) (d : RegIdx) (v : Dword) : (setReg s d v).invalidSeen = s.invalidSeen := rfl
@[simp] theorem setReg_params (s : State) (d : RegIdx) (v : Dword) : (setReg s d v).params = s.params := rfl

@[simp] theorem setFlags_x (s : State) (f : Flags) : (setFlags s f).x = s.x := rfl
@[simp] theorem setFlags_pc (s : State) (f : Flags) : (setFlags s f).pc = s.pc := rfl
@[simp] theorem setFlags_flags (s : State) (f : Flags) : (setFlags s f).flags = f := rfl
@[simp] theorem setFlags_run (s : State) (f : Flags) : (setFlags s f).run = s.run := rfl
@[simp] theorem setFlags_mem (s : State) (f : Flags) : (setFlags s f).mem = s.mem := rfl
@[simp] theorem setFlags_invalidSeen (s : State) (f : Flags) : (setFlags s f).invalidSeen = s.invalidSeen := rfl
@[simp] theorem setFlags_params (s : State) (f : Flags) : (setFlags s f).params = s.params := rfl
@[simp] theorem readReg_setFlags (s : State) (f : Flags) (k : RegIdx) :
    readReg (setFlags s f) k = readReg s k := rfl

@[simp] theorem advance_x (s : State) : (advance s).x = s.x := rfl
@[simp] theorem advance_pc (s : State) : (advance s).pc = s.pc + 4#64 := rfl
@[simp] theorem advance_flags (s : State) : (advance s).flags = s.flags := rfl
@[simp] theorem advance_run (s : State) : (advance s).run = s.run := rfl
@[simp] theorem advance_mem (s : State) : (advance s).mem = s.mem := rfl
@[simp] theorem advance_invalidSeen (s : State) : (advance s).invalidSeen = s.invalidSeen := rfl
@[simp] theorem advance_params (s : State) : (advance s).params = s.params := rfl
@[simp] theorem readReg_advance (s : State) (k : RegIdx) :
    readReg (advance s) k = readReg s k := rfl

@[simp] theorem jump_x (s : State) (p : Dword) : (jump s p).x = s.x := rfl
@[simp] theorem jump_pc (s : State) (p : Dword) : (jump s p).pc = p := rfl
@[simp] theorem jump_flags (s : State) (p : Dword) : (jump s p).flags = s.flags := rfl
@[simp] theorem jump_run (s : State) (p : Dword) : (jump s p).run = s.run := rfl
@[simp] theorem jump_mem (s : State) (p : Dword) : (jump s p).mem = s.mem := rfl
@[simp] theorem jump_invalidSeen (s : State) (p : Dword) : (jump s p).invalidSeen = s.invalidSeen := rfl
@[simp] theorem jump_params (s : State) (p : Dword) : (jump s p).params = s.params := rfl
@[simp] theorem readReg_jump (s : State) (p : Dword) (k : RegIdx) :
    readReg (jump s p) k = readReg s k := rfl

@[simp] theorem clearRun_x (s : State) : (clearRun s).x = s.x := rfl
@[simp] theorem clearRun_pc (s : State) : (clearRun s).pc = s.pc := rfl
@[simp] theorem clearRun_flags (s : State) : (clearRun s).flags = s.flags := rfl
@[simp] theorem clearRun_run (s : State) : (clearRun s).run = false := rfl
@[simp] theorem clearRun_mem (s : State) : (clearRun s).mem = s.mem := rfl
@[simp] theorem clearRun_invalidSeen (s : State) : (clearRun s).invalidSeen = s.invalidSeen := rfl
@[simp] theorem clearRun_params (s : State) : (clearRun s).params = s.params := rfl
@[simp] theorem readReg_clearRun (s : State) (k : RegIdx) :
    readReg (clearRun s) k = readReg s k := rfl

@[simp] theorem setWord_x (s : State) (a : Dword) (v : Word) : (setWord s a v).x = s.x := rfl
@[simp] theorem setWord_pc (s : State) (a : Dword) (v : Word) : (setWord s a v).pc = s.pc := rfl
@[simp] theorem setWord_flags (s : State) (a : Dword) (v : Word) : (setWord s a v).flags = s.flags := rfl
@[simp] theorem setWord_run (s : State) (a : Dword) (v : Word) : (setWord s a v).run = s.run := rfl
@[simp] theorem setWord_mem (s : State) (a : Dword) (v : Word) : (setWord s a v).mem = writeWord s.mem a v := rfl
@[simp] theorem setWord_invalidSeen (s : State) (a : Dword) (v : Word) : (setWord s a v).invalidSeen = s.invalidSeen := rfl
@[simp] theorem setWord_params (s : State) (a : Dword) (v : Word) : (setWord s a v).params = s.params := rfl
@[simp] theorem readReg_setWord (s : State) (a : Dword) (v : Word) (k : RegIdx) :
    readReg (setWord s a v) k = readReg s k := rfl

@[simp] theorem markInvalid_x (s : State) : (markInvalid s).x = s.x := rfl
@[simp] theorem markInvalid_pc (s : State) : (markInvalid s).pc = s.pc := rfl
@[simp] theorem markInvalid_flags (s : State) : (markInvalid s).flags = s.flags := rfl
@[simp] theorem markInvalid_run (s : State) : (markInvalid s).run = s.run := rfl
@[simp] theorem markInvalid_mem (s : State) : (markInvalid s).mem = s.mem := rfl
@[simp] theorem markInvalid_invalidSeen (s : State) : (markInvalid s).invalidSeen = true := rfl
@[simp] theorem markInvalid_params (s : State) : (markInvalid s).params = s.params := rfl
@[simp] theorem readReg_markInvalid (s : State) (k : RegIdx) :
    readReg (markInvalid s) k = readReg s k := rfl
@[simp] theorem readReg_setReg_same (s : State) (d : RegIdx) (v : Dword) :
    readReg (setReg s d v) d = v := by
  simp [readReg, setReg]

theorem readReg_setReg_ne (s : State) (d : RegIdx) (v : Dword) {k : RegIdx} (h : k ≠ d) :
    readReg (setReg s d v) k = readReg s k := by
  have : d.toNat ≠ k.toNat := fun e => h (BitVec.eq_of_toNat_eq e.symm)
  simp [readReg, setReg, this]

theorem readReg_setReg (s : State) (d : RegIdx) (v : Dword) (k : RegIdx) :
    readReg (setReg s d v) k = if k = d then v else readReg s k := by
  split
  · subst_vars; simp
  · exact readReg_setReg_ne s d v ‹_›

@[simp] theorem readReg_resetWith (p : Params) (m : Memory) (k : RegIdx) :
    readReg (State.resetWith p m) k = 0#64 := by
  simp [readReg, State.resetWith]

end Sys2Proof.Machine
end

