-- ==== Sys2Proof/Laws/Ops.lean ====
section
/-! SUPPORT. What each shared operation can do, said once: the access checks, the port, loads, stores,
branches, the step's first checks and its cases. -/

namespace Sys2Proof.Machine

open Sys2Proof

/-- The check of R34 on the two low bits is divisibility by 4. -/
theorem low_bits_zero_iff (a : Dword) : a.extractLsb' 0 2 = 0#2 ↔ Aligned a := by
  rw [← BitVec.toNat_inj]
  simp [Aligned, BitVec.extractLsb'_toNat]

theorem aligned_add_four {a : Dword} : Aligned (a + 4#64) ↔ Aligned a := by
  simp only [Aligned, BitVec.toNat_add, BitVec.toNat_ofNat]
  omega

theorem accessFault_none_iff (p : Params) (a : Dword) : accessFault p a = none ↔ Accessible p a := by
  unfold accessFault Accessible
  rw [← low_bits_zero_iff]
  by_cases h : a.extractLsb' 0 2 = 0#2 <;> by_cases hb : backed p a = true <;> simp [h, hb]

theorem accessFault_misaligned {p : Params} {a : Dword} (h : ¬ Aligned a) :
    accessFault p a = some (.misaligned a) := by
  rw [← low_bits_zero_iff] at h
  simp [accessFault, h]

theorem accessFault_unbacked {p : Params} {a : Dword} (h : Aligned a) (hb : backed p a = false) :
    accessFault p a = some (.unbacked a) := by
  rw [← low_bits_zero_iff] at h
  simp [accessFault, h, hb]

/-- The default `MEM_DOMAIN` holds every address (R6). -/
theorem backed_default (a : Dword) : backed Params.default a = true := by
  have : a ≤ 0xFFFFFFFFFFFFFFFF#64 := by rw [BitVec.le_def]; have := a.isLt; simp; omega
  have h0 : 0#64 ≤ a := by rw [BitVec.le_def]; exact Nat.zero_le _
  simp [backed, Params.default, this, h0]

theorem memRead_ok {s : State} {a : Dword} (h : Accessible s.params a) :
    memRead s a = .ok (readWord s.mem a) := by
  simp [memRead, (accessFault_none_iff _ _).2 h]

theorem memWrite_ok {s : State} {a : Dword} (h : Accessible s.params a) (v : Word) :
    memWrite s a v = .ok (setWord s a v) := by
  simp [memWrite, (accessFault_none_iff _ _).2 h]

theorem memRead_ok_iff {s : State} {a : Dword} {w : Word} :
    memRead s a = .ok w ↔ Accessible s.params a ∧ w = readWord s.mem a := by
  rw [← accessFault_none_iff]
  unfold memRead
  cases accessFault s.params a <;> simp [eq_comm]

theorem memRead_error_iff {s : State} {a : Dword} {f : Fault} :
    memRead s a = .error f ↔ accessFault s.params a = some f := by
  unfold memRead
  cases accessFault s.params a <;> simp

theorem memWrite_ok_iff {s t : State} {a : Dword} {v : Word} :
    memWrite s a v = .ok t ↔ Accessible s.params a ∧ t = setWord s a v := by
  rw [← accessFault_none_iff]
  unfold memWrite
  cases accessFault s.params a <;> simp [eq_comm]

theorem memWrite_error_iff {s : State} {a : Dword} {v : Word} {f : Fault} :
    memWrite s a v = .error f ↔ accessFault s.params a = some f := by
  unfold memWrite
  cases accessFault s.params a <;> simp

/-- A byte or halfword load completes exactly at an accessible address. -/
theorem loadNarrow_next_iff {s u : State} {t : RegIdx} {a : Dword} {pick : Word → Dword} :
    loadNarrow s t a pick = .next u ↔
      Accessible s.params a ∧ u = advance (setReg s t (pick (readWord s.mem a))) := by
  rw [← accessFault_none_iff]
  unfold loadNarrow memRead completeReg
  cases accessFault s.params a <;> simp [eq_comm]

theorem loadNarrow_fault_iff {s : State} {t : RegIdx} {a : Dword} {pick : Word → Dword} {f : Fault} :
    loadNarrow s t a pick = .fault f ↔ accessFault s.params a = some f := by
  unfold loadNarrow memRead completeReg
  cases accessFault s.params a <;> simp

/-- The 64-bit load completes exactly where both its words are accessible. -/
theorem loadPair_next_iff {s u : State} {t : RegIdx} {a : Dword} :
    loadPair s t a = .next u ↔
      Accessible s.params a ∧ Accessible s.params (a + 4#64) ∧
        u = advance (setReg s t (readWord s.mem (a + 4#64) ++ readWord s.mem a)) := by
  rw [← accessFault_none_iff, ← accessFault_none_iff]
  unfold loadPair memRead completeReg
  cases accessFault s.params a <;> cases accessFault s.params (a + 4#64) <;> simp [eq_comm]

theorem loadPair_fault_iff {s : State} {t : RegIdx} {a : Dword} {f : Fault} :
    loadPair s t a = .fault f ↔
      accessFault s.params a = some f ∨
        Accessible s.params a ∧ accessFault s.params (a + 4#64) = some f := by
  rw [← accessFault_none_iff]
  unfold loadPair memRead completeReg
  cases accessFault s.params a <;> cases accessFault s.params (a + 4#64) <;> simp

/-- A byte or halfword store completes exactly at an accessible address. -/
theorem storeNarrow_next_iff {s u : State} {a : Dword} {v : Word} :
    storeNarrow s a v = .next u ↔ Accessible s.params a ∧ u = advance (setWord s a v) := by
  rw [← accessFault_none_iff]
  unfold storeNarrow memWrite
  cases accessFault s.params a <;> simp [eq_comm]

theorem storeNarrow_fault_iff {s : State} {a : Dword} {v : Word} {f : Fault} :
    storeNarrow s a v = .fault f ↔ accessFault s.params a = some f := by
  unfold storeNarrow memWrite
  cases accessFault s.params a <;> simp

/-- The 64-bit store completes exactly where both its words are accessible. -/
theorem storePair_next_iff {s u : State} {a v : Dword} :
    storePair s a v = .next u ↔
      Accessible s.params a ∧ Accessible s.params (a + 4#64) ∧
        u = advance (setWord (setWord s a (v.extractLsb' 0 32)) (a + 4#64) (v.extractLsb' 32 32)) := by
  rw [← accessFault_none_iff, ← accessFault_none_iff]
  unfold storePair memWrite
  cases h : accessFault s.params a <;> cases h' : accessFault s.params (a + 4#64) <;>
    simp [h', eq_comm]

theorem storePair_fault_iff {s : State} {a v : Dword} {f : Fault} :
    storePair s a v = .fault f ↔
      accessFault s.params a = some f ∨
        Accessible s.params a ∧ accessFault s.params (a + 4#64) = some f := by
  rw [← accessFault_none_iff]
  unfold storePair memWrite
  cases h : accessFault s.params a <;> cases h' : accessFault s.params (a + 4#64) <;> simp [h']

/-- A relative branch always completes. -/
theorem branchIf_eq (s : State) (b : Bool) (off : Dword) :
    branchIf s b off = .next (jump s (if b then s.pc + off else s.pc + 4#64)) := by
  cases b <;> rfl

theorem stepFault_none_iff (s : State) :
    stepFault s = none ↔ s.run = true ∧ ¬ (s.invalidSeen = true ∧ s.params.invalidPolicy = .stop) := by
  unfold stepFault
  cases s.run <;> simp

/-- The cases of a step that gives a next state: an instruction was executed, or the `INVALID` event was
taken; in both, a step was due and its fetch was accessible. -/
theorem step_next_cases {s t : State} (h : step s = .next t) :
    stepFault s = none ∧ Accessible s.params s.pc ∧
      ((∃ i, decode (readWord s.mem s.pc) = .ok i ∧ exec i s = .next t) ∨
        (∃ e, decode (readWord s.mem s.pc) = .error e ∧ t = advance (markInvalid s))) := by
  unfold step at h
  split at h
  · cases h
  · rename_i hf
    split at h
    · cases h
    · rename_i w hw
      obtain ⟨ha, rfl⟩ := memRead_ok_iff.1 hw
      refine ⟨hf, ha, ?_⟩
      split at h
      · exact .inl ⟨_, ‹_›, h⟩
      · cases h; exact .inr ⟨_, ‹_›, rfl⟩

/-- What a step is, where it is due and its fetch accessible. -/
theorem step_eq {s : State} (hf : stepFault s = none) (ha : Accessible s.params s.pc) :
    step s = match decode (readWord s.mem s.pc) with
      | .ok i => exec i s
      | .error _ => takeInvalid s := by
  have hr : fetch s = .ok (readWord s.mem s.pc) := memRead_ok ha
  cases hd : decode (readWord s.mem s.pc) <;> simp [step, hf, hr, hd]

end Sys2Proof.Machine
end

