-- ==== Sys2Proof/Laws/PerInstr.lean ====
section
/-! SUPPORT. Per instruction: the canonical word has the instruction's tag. -/

namespace Sys2Proof.Laws

open Sys2Proof

theorem primary_encodeR (p : BitVec 8) (d n m : RegIdx) : primary (encodeR p d n m) = p :=
  slice_eq_of_toNat (by rw [toNat_encodeR]; omega)

theorem primary_encodeI (p : BitVec 8) (d n : RegIdx) (sh : BitVec 2) (imm12 : BitVec 12) : primary (encodeI p d n sh imm12) = p :=
  slice_eq_of_toNat (by rw [toNat_encodeI]; omega)

theorem primary_encodeZ (p : BitVec 8) (t : RegIdx) (imm19 : BitVec 19) : primary (encodeZ p t imm19) = p :=
  slice_eq_of_toNat (by rw [toNat_encodeZ]; omega)

theorem primary_encodeM (p : BitVec 8) (opc : BitVec 2) (t n : RegIdx) (imm9 : BitVec 9) : primary (encodeM p opc t n imm9) = p :=
  slice_eq_of_toNat (by rw [toNat_encodeM]; omega)

theorem primary_encodeW (d : RegIdx) (imm16 : BitVec 16) : primary (encodeW d imm16) = 0xD2#8 :=
  slice_eq_of_toNat (by rw [toNat_encodeW, BitVec.toNat_ofNat]; omega)

theorem primary_encodeS (imms : BitVec 6) (d n : RegIdx) (immr : BitVec 6) : primary (encodeS imms d n immr) = 0xD3#8 :=
  slice_eq_of_toNat (by rw [toNat_encodeS, BitVec.toNat_ofNat]; omega)

theorem primary_encodeC (cond : BitVec 4) (imm19 : BitVec 19) : primary (encodeC cond imm19) = 0x54#8 :=
  slice_eq_of_toNat (by rw [toNat_encodeC, BitVec.toNat_ofNat]; omega)

theorem primary_encodeJ (n : RegIdx) : primary (encodeJ n) = 0xD6#8 :=
  slice_eq_of_toNat (by rw [toNat_encodeJ, BitVec.toNat_ofNat]; omega)

theorem fieldD_encodeR (p : BitVec 8) (d n m : RegIdx) : fieldD (encodeR p d n m) = d :=
  slice_eq_of_toNat (by rw [toNat_encodeR]; omega)

theorem fieldD_encodeI (p : BitVec 8) (d n : RegIdx) (sh : BitVec 2) (imm12 : BitVec 12) :
    fieldD (encodeI p d n sh imm12) = d :=
  slice_eq_of_toNat (by rw [toNat_encodeI]; omega)

theorem fieldImms_encodeS (imms : BitVec 6) (d n : RegIdx) (immr : BitVec 6) :
    fieldImms (encodeS imms d n immr) = imms :=
  slice_eq_of_toNat (by rw [toNat_encodeS]; omega)

theorem fieldSh_encodeM (p : BitVec 8) (opc : BitVec 2) (t n : RegIdx) (imm9 : BitVec 9) :
    fieldSh (encodeM p opc t n imm9) = opc :=
  slice_eq_of_toNat (by rw [toNat_encodeM]; omega)

theorem fieldCond_encodeC (cond : BitVec 4) (imm19 : BitVec 19) :
    fieldCond (encodeC cond imm19) = cond :=
  slice_eq_of_toNat (by rw [toNat_encodeC]; omega)

theorem slice_encodeB (imm26 : BitVec 26) : slice (encodeB imm26) 26 6 = 0b000101#6 :=
  slice_eq_of_toNat (by rw [toNat_encodeB, BitVec.toNat_ofNat]; omega)

namespace EncodeTag

/-- The canonical word of an instruction has the instruction's own tag (R58, R68). -/
def Statement (i : Instr) : Prop := i.wellFormed = true → decodeTag (encode i) = i.tag

theorem addReg (d n m : RegIdx) : Statement (.addReg d n m) := by
  intro _
  rw [encode, decodeTag_of_primary (by rw [primary_encodeR]; decide)]
  simp [tagOfPrimary, Instr.tag, primary_encodeR]

theorem addRegFlags (d n m : RegIdx) : Statement (.addRegFlags d n m) := by
  intro _
  rw [encode, decodeTag_of_primary (by rw [primary_encodeR]; decide)]
  simp [tagOfPrimary, Instr.tag, primary_encodeR]

theorem addImm (d n : RegIdx) (sh : BitVec 2) (imm12 : BitVec 12) : Statement (.addImm d n sh imm12) := by
  intro _
  rw [encode, decodeTag_of_primary (by rw [primary_encodeI]; decide)]
  simp [tagOfPrimary, Instr.tag, primary_encodeI]

theorem addImmFlags (d n : RegIdx) (sh : BitVec 2) (imm12 : BitVec 12) : Statement (.addImmFlags d n sh imm12) := by
  intro _
  rw [encode, decodeTag_of_primary (by rw [primary_encodeI]; decide)]
  simp [tagOfPrimary, Instr.tag, primary_encodeI]

theorem subRegFlags (d n m : RegIdx) : Statement (.subRegFlags d n m) := by
  intro h
  have h : d ≠ 31#5 := by simpa [Instr.wellFormed] using h
  rw [encode, decodeTag_of_primary (by rw [primary_encodeR]; decide)]
  simp [tagOfPrimary, Instr.tag, primary_encodeR, fieldD_encodeR, h]

theorem cmpReg (n m : RegIdx) : Statement (.cmpReg n m) := by
  intro _
  rw [encode, decodeTag_of_primary (by rw [primary_encodeR]; decide)]
  simp [tagOfPrimary, Instr.tag, primary_encodeR, fieldD_encodeR]

theorem subImmFlags (d n : RegIdx) (sh : BitVec 2) (imm12 : BitVec 12) : Statement (.subImmFlags d n sh imm12) := by
  intro h
  have h : d ≠ 31#5 := by simpa [Instr.wellFormed] using h
  rw [encode, decodeTag_of_primary (by rw [primary_encodeI]; decide)]
  simp [tagOfPrimary, Instr.tag, primary_encodeI, fieldD_encodeI, h]

theorem cmpImm (n : RegIdx) (sh : BitVec 2) (imm12 : BitVec 12) : Statement (.cmpImm n sh imm12) := by
  intro _
  rw [encode, decodeTag_of_primary (by rw [primary_encodeI]; decide)]
  simp [tagOfPrimary, Instr.tag, primary_encodeI, fieldD_encodeI]

theorem addCarryFlags (d n m : RegIdx) : Statement (.addCarryFlags d n m) := by
  intro _
  rw [encode, decodeTag_of_primary (by rw [primary_encodeR]; decide)]
  simp [tagOfPrimary, Instr.tag, primary_encodeR]

theorem multiply (d n m : RegIdx) : Statement (.multiply d n m) := by
  intro _
  rw [encode, decodeTag_of_primary (by rw [primary_encodeR]; decide)]
  simp [tagOfPrimary, Instr.tag, primary_encodeR]

theorem andFlags (d n m : RegIdx) : Statement (.andFlags d n m) := by
  intro _
  rw [encode, decodeTag_of_primary (by rw [primary_encodeR]; decide)]
  simp [tagOfPrimary, Instr.tag, primary_encodeR]

theorem eor (d n m : RegIdx) : Statement (.eor d n m) := by
  intro _
  rw [encode, decodeTag_of_primary (by rw [primary_encodeR]; decide)]
  simp [tagOfPrimary, Instr.tag, primary_encodeR]

theorem orr (d n m : RegIdx) : Statement (.orr d n m) := by
  intro _
  rw [encode, decodeTag_of_primary (by rw [primary_encodeR]; decide)]
  simp [tagOfPrimary, Instr.tag, primary_encodeR]

theorem moveWideImm (d : RegIdx) (imm16 : BitVec 16) : Statement (.moveWideImm d imm16) := by
  intro _
  rw [encode, decodeTag_of_primary (by rw [primary_encodeW]; decide)]
  simp [tagOfPrimary, Instr.tag, primary_encodeW]

theorem shiftLeft (d n : RegIdx) (immr : BitVec 6) : Statement (.shiftLeft d n immr) := by
  intro _
  rw [encode, decodeTag_of_primary (by rw [primary_encodeS]; decide)]
  simp [tagOfPrimary, Instr.tag, primary_encodeS, fieldImms_encodeS]

theorem shiftRight (d n : RegIdx) (immr : BitVec 6) : Statement (.shiftRight d n immr) := by
  intro _
  rw [encode, decodeTag_of_primary (by rw [primary_encodeS]; decide)]
  simp [tagOfPrimary, Instr.tag, primary_encodeS, fieldImms_encodeS]

theorem storeWord (t n : RegIdx) (imm9 : BitVec 9) : Statement (.storeWord t n imm9) := by
  intro _
  rw [encode, decodeTag_of_primary (by rw [primary_encodeM]; decide)]
  simp [tagOfPrimary, Instr.tag, primary_encodeM, fieldSh_encodeM, tagOfOpc]

theorem loadWord (t n : RegIdx) (imm9 : BitVec 9) : Statement (.loadWord t n imm9) := by
  intro _
  rw [encode, decodeTag_of_primary (by rw [primary_encodeM]; decide)]
  simp [tagOfPrimary, Instr.tag, primary_encodeM, fieldSh_encodeM, tagOfOpc]

theorem storeByte (t n : RegIdx) (imm9 : BitVec 9) : Statement (.storeByte t n imm9) := by
  intro _
  rw [encode, decodeTag_of_primary (by rw [primary_encodeM]; decide)]
  simp [tagOfPrimary, Instr.tag, primary_encodeM, fieldSh_encodeM, tagOfOpc]

theorem loadByte (t n : RegIdx) (imm9 : BitVec 9) : Statement (.loadByte t n imm9) := by
  intro _
  rw [encode, decodeTag_of_primary (by rw [primary_encodeM]; decide)]
  simp [tagOfPrimary, Instr.tag, primary_encodeM, fieldSh_encodeM, tagOfOpc]

theorem storeHalf (t n : RegIdx) (imm9 : BitVec 9) : Statement (.storeHalf t n imm9) := by
  intro _
  rw [encode, decodeTag_of_primary (by rw [primary_encodeM]; decide)]
  simp [tagOfPrimary, Instr.tag, primary_encodeM, fieldSh_encodeM, tagOfOpc]

theorem loadHalf (t n : RegIdx) (imm9 : BitVec 9) : Statement (.loadHalf t n imm9) := by
  intro _
  rw [encode, decodeTag_of_primary (by rw [primary_encodeM]; decide)]
  simp [tagOfPrimary, Instr.tag, primary_encodeM, fieldSh_encodeM, tagOfOpc]

theorem branchUncond (imm26 : BitVec 26) : Statement (.branchUncond imm26) := by
  exact fun _ => decodeTag_of_branch (slice_encodeB imm26)

theorem branchReg (n : RegIdx) : Statement (.branchReg n) := by
  intro _
  rw [encode, decodeTag_of_primary (by rw [primary_encodeJ]; decide)]
  simp [tagOfPrimary, Instr.tag, primary_encodeJ]

theorem branchCondEq (imm19 : BitVec 19) : Statement (.branchCondEq imm19) := by
  intro _
  rw [encode, decodeTag_of_cond (primary_encodeC _ _), fieldCond_encodeC]
  rfl

theorem branchCondNe (imm19 : BitVec 19) : Statement (.branchCondNe imm19) := by
  intro _
  rw [encode, decodeTag_of_cond (primary_encodeC _ _), fieldCond_encodeC]
  rfl

theorem branchCondGt (imm19 : BitVec 19) : Statement (.branchCondGt imm19) := by
  intro _
  rw [encode, decodeTag_of_cond (primary_encodeC _ _), fieldCond_encodeC]
  rfl

theorem branchCondLt (imm19 : BitVec 19) : Statement (.branchCondLt imm19) := by
  intro _
  rw [encode, decodeTag_of_cond (primary_encodeC _ _), fieldCond_encodeC]
  rfl

theorem branchCondGe (imm19 : BitVec 19) : Statement (.branchCondGe imm19) := by
  intro _
  rw [encode, decodeTag_of_cond (primary_encodeC _ _), fieldCond_encodeC]
  rfl

theorem branchCondLe (imm19 : BitVec 19) : Statement (.branchCondLe imm19) := by
  intro _
  rw [encode, decodeTag_of_cond (primary_encodeC _ _), fieldCond_encodeC]
  rfl

theorem cmpBranchZero (t : RegIdx) (imm19 : BitVec 19) : Statement (.cmpBranchZero t imm19) := by
  intro _
  rw [encode, decodeTag_of_primary (by rw [primary_encodeZ]; decide)]
  simp [tagOfPrimary, Instr.tag, primary_encodeZ]

theorem cmpBranchNonzero (t : RegIdx) (imm19 : BitVec 19) : Statement (.cmpBranchNonzero t imm19) := by
  intro _
  rw [encode, decodeTag_of_primary (by rw [primary_encodeZ]; decide)]
  simp [tagOfPrimary, Instr.tag, primary_encodeZ]

theorem halt : Statement .halt := by
  exact fun _ => by decide

end EncodeTag

end Sys2Proof.Laws
end

