-- ==== Sys2Proof/Tests/Slice0.lean ====
section
/-! SUPPORT. Tests: ill-formed terms refused, every constructor's decoding from a word written out field
by field from the formats of R51, single steps with the end states of 95_test_vectors.md, and for each
obligation with hypotheses a state and operands that meet them. No expected value was computed by the
model. -/

namespace Sys2Proof.Tests

open Sys2Proof Sys2Proof.Machine

/-! ## Helpers -/

/-- The flags, written as 95_test_vectors.md writes them. -/
def nzcv (b : BitVec 4) : Flags := ⟨b.getLsbD 3, b.getLsbD 2, b.getLsbD 1, b.getLsbD 0⟩

/-- The start state of a row of 95_test_vectors.md: the word at 0x1000, the listed registers, flags and
memory words, all else as after reset. -/
def start (w : Nat) (regs : List (RegIdx × Dword)) (f : Flags) (words : List (Dword × Word)) : State :=
  let s := setFlags (State.reset.withFetchWord 32 w) f
  let s := regs.foldl (fun s r => setReg s r.1 r.2) s
  words.foldl (fun s r => setWord s r.1 r.2) s

/-- The state after an answer that is a next state. -/
def nextOf : Result → Option State
  | .next t => some t
  | .fault _ => none
  | .refused _ => none

/-- The fault of an answer that is one. -/
def faultOf : Result → Option Fault
  | .next _ => none
  | .fault f => some f
  | .refused _ => none

/-- The state after one step. -/
def after (s : State) : Option State := nextOf (step s)

/-- The same state under other parameters. -/
def withParams (s : State) (p : Params) : State := { s with params := p }

/-- `MEM_DOMAIN` from 0x1000 to 0x1FFF only, and `INVALID_POLICY = stop`. -/
def smallStop : Params := ⟨0x400#62, [⟨0x1000#64, 0x1FFF#64⟩], .stop⟩

/-! ## Well-formedness -/

/-- R62: a `SUB_REG_FLAGS` with destination 31 is no word's reading. -/
theorem test_illformed_subRegFlags : (Instr.subRegFlags 31 1 2).wellFormed = false := by decide

/-- R62: a `SUB_IMM_FLAGS` with destination 31 is no word's reading. -/
theorem test_illformed_subImmFlags : (Instr.subImmFlags 31 1 0 10).wellFormed = false := by decide

/-- R62: destination 30 is the highest for both; 31 is a register like any other elsewhere. -/
theorem test_wellformed_boundary :
    (Instr.subRegFlags 30 1 2).wellFormed = true ∧ (Instr.subImmFlags 30 1 0 10).wellFormed = true ∧
      (Instr.addReg 31 31 31).wellFormed = true := by decide

/-! ## Decoding: one word for each constructor, its fields in the order of the format (R51), every
don't-care field not zero -/

theorem test_decode_addReg :
    decode (0x8B#8 ++ 0b101#3 ++ 7#5 ++ 0b100001#6 ++ 6#5 ++ 5#5) = .ok (.addReg 5 6 7) := by decide
theorem test_decode_addRegFlags :
    decode (0xAB#8 ++ 0b101#3 ++ 7#5 ++ 0b100001#6 ++ 6#5 ++ 5#5) = .ok (.addRegFlags 5 6 7) := by decide
theorem test_decode_addImm :
    decode (0x91#8 ++ 0b11#2 ++ 0x801#12 ++ 6#5 ++ 5#5) = .ok (.addImm 5 6 3 0x801) := by decide
theorem test_decode_addImmFlags :
    decode (0xB1#8 ++ 0b01#2 ++ 0x801#12 ++ 6#5 ++ 5#5) = .ok (.addImmFlags 5 6 1 0x801) := by decide
theorem test_decode_subRegFlags :
    decode (0xEB#8 ++ 0b101#3 ++ 7#5 ++ 0b100001#6 ++ 6#5 ++ 30#5) = .ok (.subRegFlags 30 6 7) := by decide
theorem test_decode_cmpReg :
    decode (0xEB#8 ++ 0b101#3 ++ 7#5 ++ 0b100001#6 ++ 6#5 ++ 31#5) = .ok (.cmpReg 6 7) := by decide
theorem test_decode_subImmFlags :
    decode (0xF1#8 ++ 0b10#2 ++ 0x801#12 ++ 6#5 ++ 15#5) = .ok (.subImmFlags 15 6 2 0x801) := by decide
theorem test_decode_cmpImm :
    decode (0xF1#8 ++ 0b01#2 ++ 0x801#12 ++ 6#5 ++ 31#5) = .ok (.cmpImm 6 1 0x801) := by decide
theorem test_decode_addCarryFlags :
    decode (0xBA#8 ++ 0b101#3 ++ 7#5 ++ 0b100001#6 ++ 6#5 ++ 5#5) = .ok (.addCarryFlags 5 6 7) := by decide
theorem test_decode_multiply :
    decode (0x9B#8 ++ 0b101#3 ++ 7#5 ++ 0b100001#6 ++ 6#5 ++ 5#5) = .ok (.multiply 5 6 7) := by decide
theorem test_decode_andFlags :
    decode (0xEA#8 ++ 0b101#3 ++ 7#5 ++ 0b100001#6 ++ 6#5 ++ 5#5) = .ok (.andFlags 5 6 7) := by decide
theorem test_decode_eor :
    decode (0xCA#8 ++ 0b101#3 ++ 7#5 ++ 0b100001#6 ++ 6#5 ++ 5#5) = .ok (.eor 5 6 7) := by decide
theorem test_decode_orr :
    decode (0xAA#8 ++ 0b101#3 ++ 7#5 ++ 0b100001#6 ++ 6#5 ++ 5#5) = .ok (.orr 5 6 7) := by decide
theorem test_decode_moveWideImm :
    decode (0xD2#8 ++ 0b101#3 ++ 0x8001#16 ++ 5#5) = .ok (.moveWideImm 5 0x8001) := by decide
theorem test_decode_shiftLeft :
    decode (0xD3#8 ++ 0b01#2 ++ 33#6 ++ 62#6 ++ 6#5 ++ 5#5) = .ok (.shiftLeft 5 6 33) := by decide
theorem test_decode_shiftRight :
    decode (0xD3#8 ++ 0b01#2 ++ 33#6 ++ 63#6 ++ 6#5 ++ 5#5) = .ok (.shiftRight 5 6 33) := by decide
theorem test_decode_storeWord :
    decode (0xF8#8 ++ 0b00#2 ++ 1#1 ++ 0x101#9 ++ 0b11#2 ++ 6#5 ++ 5#5) = .ok (.storeWord 5 6 0x101) := by
  decide
theorem test_decode_loadWord :
    decode (0xF8#8 ++ 0b01#2 ++ 1#1 ++ 0x101#9 ++ 0b11#2 ++ 6#5 ++ 5#5) = .ok (.loadWord 5 6 0x101) := by
  decide
theorem test_decode_storeByte :
    decode (0x38#8 ++ 0b00#2 ++ 1#1 ++ 0x101#9 ++ 0b11#2 ++ 6#5 ++ 5#5) = .ok (.storeByte 5 6 0x101) := by
  decide
theorem test_decode_loadByte :
    decode (0x38#8 ++ 0b01#2 ++ 1#1 ++ 0x101#9 ++ 0b11#2 ++ 6#5 ++ 5#5) = .ok (.loadByte 5 6 0x101) := by
  decide
theorem test_decode_storeHalf :
    decode (0x78#8 ++ 0b00#2 ++ 1#1 ++ 0x101#9 ++ 0b11#2 ++ 6#5 ++ 5#5) = .ok (.storeHalf 5 6 0x101) := by
  decide
theorem test_decode_loadHalf :
    decode (0x78#8 ++ 0b01#2 ++ 1#1 ++ 0x101#9 ++ 0b11#2 ++ 6#5 ++ 5#5) = .ok (.loadHalf 5 6 0x101) := by
  decide
theorem test_decode_branchUncond :
    decode (0b000101#6 ++ 0x2000001#26) = .ok (.branchUncond 0x2000001) := by decide
theorem test_decode_branchReg :
    decode (0xD6#8 ++ 0b10000000011#11 ++ 0b001#3 ++ 6#5 ++ 5#5) = .ok (.branchReg 6) := by decide
theorem test_decode_branchCondEq :
    decode (0x54#8 ++ 0x40001#19 ++ 1#1 ++ 0x0#4) = .ok (.branchCondEq 0x40001) := by decide
theorem test_decode_branchCondNe :
    decode (0x54#8 ++ 0x40001#19 ++ 1#1 ++ 0x1#4) = .ok (.branchCondNe 0x40001) := by decide
theorem test_decode_branchCondGt :
    decode (0x54#8 ++ 0x40001#19 ++ 1#1 ++ 0xC#4) = .ok (.branchCondGt 0x40001) := by decide
theorem test_decode_branchCondLt :
    decode (0x54#8 ++ 0x40001#19 ++ 1#1 ++ 0xB#4) = .ok (.branchCondLt 0x40001) := by decide
theorem test_decode_branchCondGe :
    decode (0x54#8 ++ 0x40001#19 ++ 1#1 ++ 0xA#4) = .ok (.branchCondGe 0x40001) := by decide
theorem test_decode_branchCondLe :
    decode (0x54#8 ++ 0x40001#19 ++ 1#1 ++ 0xD#4) = .ok (.branchCondLe 0x40001) := by decide
theorem test_decode_cmpBranchZero :
    decode (0xB4#8 ++ 0x40001#19 ++ 5#5) = .ok (.cmpBranchZero 5 0x40001) := by decide
theorem test_decode_cmpBranchNonzero :
    decode (0xB5#8 ++ 0x40001#19 ++ 5#5) = .ok (.cmpBranchNonzero 5 0x40001) := by decide
theorem test_decode_halt :
    decode (0x6A2#11 ++ 0xFFFF#16 ++ 0#5) = .ok .halt := by decide

/-- Rows D3 to D5, D9 to D11, D18 to D21 and D23. -/
theorem test_decode_invalid_by_prefix_or_condition :
    [0xD4400001#32, 0xD4200000#32, 0xD4600000#32, 0x18000000#32, 0x10000000#32, 0x94000000#32,
        0x54000002#32, 0x54000009#32, 0x5400000E#32, 0x5400000F#32, 0x55000000#32].all
      (fun w => decodeTag w == .invalid) = true := by decide

/-- Rows D42, D43, D46, D49 and D59 to D65. -/
theorem test_decode_invalid_by_selector :
    [0xF8800000#32, 0xF8C00000#32, 0x38800000#32, 0x78C00000#32, 0x00000000#32, 0xFFFFFFFF#32,
        0xD503201F#32, 0x8A000000#32, 0xCB000000#32, 0xD1000000#32, 0x9A000000#32].all
      (fun w => decodeTag w == .invalid) = true := by decide

/-- Rows D66 to D73. -/
theorem test_decode_invalid_by_primary_byte :
    [0xB9000000#32, 0x39000000#32, 0xF9000000#32, 0xF2000000#32, 0x92000000#32, 0x34000000#32,
        0x2B000000#32, 0x0B000000#32].all
      (fun w => decodeTag w == .invalid) = true := by decide

/-- R50: fewer than four bytes are no instruction, and the bytes after an instruction are given back. -/
theorem test_decode_bytes :
    decodeBytes [0x20, 0x00, 0x02] = .error (.truncated 3) ∧
      decodeBytes [0x20, 0x00, 0x02, 0x8B, 0x99] = .ok (.addReg 0 1 2, [0x99]) := by decide

theorem test_decode_table_word : decodeTableWord 32 0x8B020020 = some (.addReg 0 1 2) ∧
    decodeTableWord 32 0xD503201F = none := by decide

/-! ## The datapath units: 95_test_vectors.md, 2.3 and 2.4 -/

theorem test_W_adder_rows :
    addWithCarry 0 0 false = (0, nzcv 0b0100) ∧
    addWithCarry 0xFFFFFFFFFFFFFFFF 1 false = (0, nzcv 0b0110) ∧
    addWithCarry 0x8000000000000000 0x8000000000000000 false = (0, nzcv 0b0111) ∧
    addWithCarry 0x7FFFFFFFFFFFFFFF 0 true = (0x8000000000000000, nzcv 0b1001) ∧
    addWithCarry 0xFFFFFFFFFFFFFFFF 0 true = (0, nzcv 0b0110) ∧
    addWithCarry 0xFFFFFFFFFFFFFFFF 0xFFFFFFFFFFFFFFFF true = (0xFFFFFFFFFFFFFFFF, nzcv 0b1010) := by
  decide

theorem test_X_sext_rows :
    sext 21 0x1FFFFF = 0xFFFFFFFFFFFFFFFF ∧ sext 21 0x100000 = 0xFFFFFFFFFFF00000 ∧
    sext 28 0x7FFFFFC = 0x7FFFFFC ∧ sext 21 0x3FFFFF = 0xFFFFFFFFFFFFFFFF ∧
    sext 1 1 = 0xFFFFFFFFFFFFFFFF ∧ sext 64 0x8000000000000000 = 0x8000000000000000 := by decide

/-! ## Single steps -/

/-- Row A2 of 95_test_vectors.md: `ADD_REG R0, R1, R2`. -/
theorem test_A2_add_reg :
    (after (start 0x8B020020 [(1, 0xFFFFFFFFFFFFFFFF), (2, 0x1)] (nzcv 0b1111) [])).map (fun t => (readReg t 0, t.flags, t.pc))
      = some (0x0, (nzcv 0b1111), 0x1004) := by decide

/-- Row A3 of 95_test_vectors.md: `ADD_REG R0, R0, R0`. -/
theorem test_A3_add_reg :
    (after (start 0x8B000000 [(0, 0x8000000000000000)] (nzcv 0b0000) [])).map (fun t => (readReg t 0, t.flags, t.pc))
      = some (0x0, (nzcv 0b0000), 0x1004) := by decide

/-- Row A5 of 95_test_vectors.md: `ADD_REG_FLAGS R3, R4, R5`. -/
theorem test_A5_add_reg_flags :
    (after (start 0xAB050083 [(4, 0x7FFFFFFFFFFFFFFF), (5, 0x1)] (nzcv 0b0000) [])).map (fun t => (readReg t 3, t.flags, t.pc))
      = some (0x8000000000000000, (nzcv 0b1001), 0x1004) := by decide

/-- Row A6 of 95_test_vectors.md: `ADD_REG_FLAGS R3, R4, R5`. -/
theorem test_A6_add_reg_flags :
    (after (start 0xAB050083 [(4, 0x8000000000000000), (5, 0x8000000000000000)] (nzcv 0b0000) [])).map (fun t => (readReg t 3, t.flags, t.pc))
      = some (0x0, (nzcv 0b0111), 0x1004) := by decide

/-- Row A9 of 95_test_vectors.md: `ADD_IMM R1, R2, #1, LSL12`. -/
theorem test_A9_add_imm :
    (after (start 0x91400441 [(2, 0x1)] (nzcv 0b0000) [])).map (fun t => (readReg t 1, t.flags, t.pc))
      = some (0x1001, (nzcv 0b0000), 0x1004) := by decide

/-- Row A11 of 95_test_vectors.md: `ADD_IMM R1, R2, #1 (sh = 3)`. -/
theorem test_A11_add_imm :
    (after (start 0x91C00441 [(2, 0x1)] (nzcv 0b0000) [])).map (fun t => (readReg t 1, t.flags, t.pc))
      = some (0x2, (nzcv 0b0000), 0x1004) := by decide

/-- Row A12 of 95_test_vectors.md: `ADD_IMM_FLAGS R1, R1, #1`. -/
theorem test_A12_add_imm_flags :
    (after (start 0xB1000421 [(1, 0xFFFFFFFFFFFFFFFF)] (nzcv 0b0000) [])).map (fun t => (readReg t 1, t.flags, t.pc))
      = some (0x0, (nzcv 0b0110), 0x1004) := by decide

/-- Row A13 of 95_test_vectors.md: `ADD_IMM_FLAGS R1, R1, #1`. -/
theorem test_A13_add_imm_flags :
    (after (start 0xB1000421 [(1, 0x7FFFFFFFFFFFFFFF)] (nzcv 0b0000) [])).map (fun t => (readReg t 1, t.flags, t.pc))
      = some (0x8000000000000000, (nzcv 0b1001), 0x1004) := by decide

/-- Row A14 of 95_test_vectors.md: `SUB_REG_FLAGS R0, R1, R2`. -/
theorem test_A14_sub_reg_flags :
    (after (start 0xEB020020 [(1, 0x5), (2, 0x7)] (nzcv 0b0000) [])).map (fun t => (readReg t 0, t.flags, t.pc))
      = some (0xFFFFFFFFFFFFFFFE, (nzcv 0b1000), 0x1004) := by decide

/-- Row A17 of 95_test_vectors.md: `SUB_REG_FLAGS R0, R1, R2`. -/
theorem test_A17_sub_reg_flags :
    (after (start 0xEB020020 [(1, 0x8000000000000000), (2, 0x1)] (nzcv 0b0000) [])).map (fun t => (readReg t 0, t.flags, t.pc))
      = some (0x7FFFFFFFFFFFFFFF, (nzcv 0b0011), 0x1004) := by decide

/-- Row A20 of 95_test_vectors.md: `CMP_REG R1, R2`. -/
theorem test_A20_cmp_reg :
    (after (start 0xEB02003F [(1, 0x7), (2, 0x5), (31, 0x99)] (nzcv 0b0000) [])).map (fun t => (readReg t 31, t.flags, t.pc))
      = some (0x99, (nzcv 0b0010), 0x1004) := by decide

/-- Row A21 of 95_test_vectors.md: `SUB_IMM_FLAGS R1, R1, #1`. -/
theorem test_A21_sub_imm_flags :
    (after (start 0xF1000421 [(1, 0x1)] (nzcv 0b0000) [])).map (fun t => (readReg t 1, t.flags, t.pc))
      = some (0x0, (nzcv 0b0110), 0x1004) := by decide

/-- Row A22 of 95_test_vectors.md: `SUB_IMM_FLAGS R1, R1, #1`. -/
theorem test_A22_sub_imm_flags :
    (after (start 0xF1000421 [(1, 0x0)] (nzcv 0b0000) [])).map (fun t => (readReg t 1, t.flags, t.pc))
      = some (0xFFFFFFFFFFFFFFFF, (nzcv 0b1000), 0x1004) := by decide

/-- Row A23 of 95_test_vectors.md: `CMP_IMM R3, #10`. -/
theorem test_A23_cmp_imm :
    (after (start 0xF100287F [(3, 0xA), (31, 0x99)] (nzcv 0b0000) [])).map (fun t => (readReg t 31, t.flags, t.pc))
      = some (0x99, (nzcv 0b0110), 0x1004) := by decide

/-- Row A24 of 95_test_vectors.md: `CMP_IMM R3, #1, LSL12`. -/
theorem test_A24_cmp_imm :
    (after (start 0xF140047F [(3, 0x1000)] (nzcv 0b0000) [])).map (fun t => (readReg t 31, t.flags, t.pc))
      = some (0x0, (nzcv 0b0110), 0x1004) := by decide

/-- Row A27 of 95_test_vectors.md: `ADD_CARRY_FLAGS R5, R1, R3`. -/
theorem test_A27_add_carry_flags :
    (after (start 0xBA030025 [(1, 0xFFFFFFFFFFFFFFFF), (3, 0xFFFFFFFFFFFFFFFF)] (nzcv 0b0010) [])).map (fun t => (readReg t 5, t.flags, t.pc))
      = some (0xFFFFFFFFFFFFFFFF, (nzcv 0b1010), 0x1004) := by decide

/-- Row A30 of 95_test_vectors.md: `ADD_CARRY_FLAGS R5, R1, R3`. -/
theorem test_A30_add_carry_flags :
    (after (start 0xBA030025 [(1, 0x1), (3, 0x2)] (nzcv 0b1101) [])).map (fun t => (readReg t 5, t.flags, t.pc))
      = some (0x3, (nzcv 0b0000), 0x1004) := by decide

/-- Row A32 of 95_test_vectors.md: `MULTIPLY R31, R31, R31`. -/
theorem test_A32_multiply :
    (after (start 0x9B1F03FF [(31, 0x3)] (nzcv 0b0000) [])).map (fun t => (readReg t 31, t.flags, t.pc))
      = some (0xC, (nzcv 0b0000), 0x1004) := by decide

/-- Row A36 of 95_test_vectors.md: `MULTIPLY R6, R4, R5`. -/
theorem test_A36_multiply :
    (after (start 0x9B050086 [(4, 0xFFFFFFFFFFFFFFFF), (5, 0x2), (31, 0x1)] (nzcv 0b0000) [])).map (fun t => (readReg t 6, t.flags, t.pc))
      = some (0xFFFFFFFFFFFFFFFF, (nzcv 0b0000), 0x1004) := by decide

/-- Row G1 of 95_test_vectors.md: `AND_FLAGS R0, R1, R2`. -/
theorem test_G1_and_flags :
    (after (start 0xEA020020 [(1, 0xF0F0F0F0F0F0F0F0), (2, 0x8000000000000001)] (nzcv 0b0011) [])).map (fun t => (readReg t 0, t.flags, t.pc))
      = some (0x8000000000000000, (nzcv 0b1011), 0x1004) := by decide

/-- Row G2 of 95_test_vectors.md: `AND_FLAGS R0, R1, R2`. -/
theorem test_G2_and_flags :
    (after (start 0xEA020020 [(0, 0x9), (1, 0x1234), (2, 0x0)] (nzcv 0b1011) [])).map (fun t => (readReg t 0, t.flags, t.pc))
      = some (0x0, (nzcv 0b0111), 0x1004) := by decide

/-- Row G4 of 95_test_vectors.md: `EOR R0, R1, R1`. -/
theorem test_G4_eor :
    (after (start 0xCA010020 [(0, 0x9), (1, 0xDEADBEEF)] (nzcv 0b1111) [])).map (fun t => (readReg t 0, t.flags, t.pc))
      = some (0x0, (nzcv 0b1111), 0x1004) := by decide

/-- Row G5 of 95_test_vectors.md: `EOR R0, R1, R2`. -/
theorem test_G5_eor :
    (after (start 0xCA020020 [(1, 0xFF00), (2, 0xFF0)] (nzcv 0b0000) [])).map (fun t => (readReg t 0, t.flags, t.pc))
      = some (0xF0F0, (nzcv 0b0000), 0x1004) := by decide

/-- Row G7 of 95_test_vectors.md: `ORR R0, R31, R31`. -/
theorem test_G7_orr :
    (after (start 0xAA1F03E0 [(31, 0x55)] (nzcv 0b0000) [])).map (fun t => (readReg t 0, t.flags, t.pc))
      = some (0x55, (nzcv 0b0000), 0x1004) := by decide

/-- Row G8 of 95_test_vectors.md: `ORR R0, R1, R2`. -/
theorem test_G8_orr :
    (after (start 0xAA020020 [(1, 0xABCD), (2, 0x0)] (nzcv 0b0000) [])).map (fun t => (readReg t 0, t.flags, t.pc))
      = some (0xABCD, (nzcv 0b0000), 0x1004) := by decide

/-- Row G9 of 95_test_vectors.md: `MOVE_WIDE_IMM R0, #0xFFFF`. -/
theorem test_G9_move_wide_imm :
    (after (start 0xD21FFFE0 [(0, 0xFFFFFFFFFFFFFFFF)] (nzcv 0b1111) [])).map (fun t => (readReg t 0, t.flags, t.pc))
      = some (0xFFFF, (nzcv 0b1111), 0x1004) := by decide

/-- Row G10 of 95_test_vectors.md: `MOVE_WIDE_IMM R0, #1 (w[23:21] = 0b101)`. -/
theorem test_G10_move_wide_imm :
    (after (start 0xD2A00020 [(0, 0xFFFFFFFFFFFFFFFF)] (nzcv 0b0000) [])).map (fun t => (readReg t 0, t.flags, t.pc))
      = some (0x1, (nzcv 0b0000), 0x1004) := by decide

/-- Row G12 of 95_test_vectors.md: `SHIFT_LEFT R0, R1, #4`. -/
theorem test_G12_shift_left :
    (after (start 0xD33C0020 [(1, 0x8000000000000001)] (nzcv 0b0000) [])).map (fun t => (readReg t 0, t.flags, t.pc))
      = some (0x10, (nzcv 0b0000), 0x1004) := by decide

/-- Row G13 of 95_test_vectors.md: `SHIFT_LEFT R0, R1, #64`. -/
theorem test_G13_shift_left :
    (after (start 0xD3000020 [(0, 0x5), (1, 0xFFFFFFFFFFFFFFFF)] (nzcv 0b0000) [])).map (fun t => (readReg t 0, t.flags, t.pc))
      = some (0x0, (nzcv 0b0000), 0x1004) := by decide

/-- Row G17 of 95_test_vectors.md: `SHIFT_RIGHT R0, R1, #4`. -/
theorem test_G17_shift_right :
    (after (start 0xD304FC20 [(1, 0x8000000000000001)] (nzcv 0b0000) [])).map (fun t => (readReg t 0, t.flags, t.pc))
      = some (0x800000000000000, (nzcv 0b0000), 0x1004) := by decide

/-- Row G19 of 95_test_vectors.md: `SHIFT_RIGHT R0, R1, #63`. -/
theorem test_G19_shift_right :
    (after (start 0xD33FFC20 [(1, 0xF0F0F0F0F0F0F0F0)] (nzcv 0b0000) [])).map (fun t => (readReg t 0, t.flags, t.pc))
      = some (0x1, (nzcv 0b0000), 0x1004) := by decide

/-- Row M1 of 95_test_vectors.md: `STORE_WORD R2, [R1, #8]`. -/
theorem test_M1_store_word :
    (after (start 0xF8008022 [(1, 0x2000), (2, 0x1122334455667788)] (nzcv 0b0000) [])).map (fun t => (readWord t.mem 0x2008, readWord t.mem 0x200C, t.flags, t.pc))
      = some (0x55667788, 0x11223344, (nzcv 0b0000), 0x1004) := by decide

/-- Row M13 of 95_test_vectors.md: `STORE_WORD R2, [R1, #0]`. -/
theorem test_M13_store_word :
    (after (start 0xF8000022 [(1, 0xFFFFFFFFFFFFFFFC), (2, 0x1122334455667788)] (nzcv 0b0000) [])).map (fun t => (readWord t.mem 0xFFFFFFFFFFFFFFFC, readWord t.mem 0x0, t.flags, t.pc))
      = some (0x55667788, 0x11223344, (nzcv 0b0000), 0x1004) := by decide

/-- Row M3 of 95_test_vectors.md: `LOAD_WORD R1, [R1, #0]`. -/
theorem test_M3_load_word :
    (after (start 0xF8400021 [(1, 0x2008)] (nzcv 0b0000) [(0x2008, 0xAAAA5555), (0x200C, 0x00000001)])).map (fun t => (readReg t 1, t.flags, t.pc))
      = some (0x1AAAA5555, (nzcv 0b0000), 0x1004) := by decide

/-- Row M9 of 95_test_vectors.md: `LOAD_WORD R4, [R1, #511]`. -/
theorem test_M9_load_word_stops : 
    faultOf (step (start 0xF85FF024 [(1, 0x2000)] (nzcv 0b0000) []))
      = some (.misaligned 0x21FF) := by decide

/-- Row M4 of 95_test_vectors.md: `STORE_BYTE R2, [R1, #12]`. -/
theorem test_M4_store_byte :
    (after (start 0x3800C022 [(1, 0x2000), (2, 0xBEEF000000001234)] (nzcv 0b0000) [(0x200C, 0xBEEF0000)])).map (fun t => (readWord t.mem 0x200C, t.flags, t.pc))
      = some (0x00000034, (nzcv 0b0000), 0x1004) := by decide

/-- Row M6 of 95_test_vectors.md: `LOAD_BYTE R6, [R1, #8]`. -/
theorem test_M6_load_byte :
    (after (start 0x38408026 [(1, 0x2000), (6, 0xFFFFFFFFFFFFFFFF)] (nzcv 0b0000) [(0x2008, 0xFFFFFF80)])).map (fun t => (readReg t 6, t.flags, t.pc))
      = some (0x80, (nzcv 0b0000), 0x1004) := by decide

/-- Row M11 of 95_test_vectors.md: `LOAD_BYTE R6, [R1, #1]`. -/
theorem test_M11_load_byte_stops : 
    faultOf (step (start 0x38401026 [(1, 0x2000)] (nzcv 0b0000) [(0x2000, 0x11223344)]))
      = some (.misaligned 0x2001) := by decide

/-- Row M7 of 95_test_vectors.md: `STORE_HALF R2, [R1, #4]`. -/
theorem test_M7_store_half :
    (after (start 0x78004022 [(1, 0x2000), (2, 0xBEEF000000001234)] (nzcv 0b0000) [(0x2004, 0xFFFFFFFF)])).map (fun t => (readWord t.mem 0x2004, t.flags, t.pc))
      = some (0x00001234, (nzcv 0b0000), 0x1004) := by decide

/-- Row M12 of 95_test_vectors.md: `STORE_HALF R2, [R1, #2]`. -/
theorem test_M12_store_half_stops : 
    faultOf (step (start 0x78002022 [(1, 0x2000), (2, 0xABCD)] (nzcv 0b0000) []))
      = some (.misaligned 0x2002) := by decide

/-- Row M8 of 95_test_vectors.md: `LOAD_HALF R5, [R1, #12]`. -/
theorem test_M8_load_half :
    (after (start 0x7840C025 [(1, 0x2000)] (nzcv 0b0000) [(0x200C, 0xBEEF8001)])).map (fun t => (readReg t 5, t.flags, t.pc))
      = some (0x8001, (nzcv 0b0000), 0x1004) := by decide

/-- Row B1 of 95_test_vectors.md: `BRANCH_UNCOND #-4`. -/
theorem test_B1_branch_uncond :
    (after (start 0x17FFFFFF [] (nzcv 0b0000) [])).map (fun t => (t.flags, t.pc))
      = some ((nzcv 0b0000), 0xFFC) := by decide

/-- Row B4 of 95_test_vectors.md: `BRANCH_UNCOND #-0x8000000`. -/
theorem test_B4_branch_uncond :
    (after (start 0x16000000 [] (nzcv 0b0000) [])).map (fun t => (t.flags, t.pc))
      = some ((nzcv 0b0000), 0xFFFFFFFFF8001000) := by decide

/-- Row B7 of 95_test_vectors.md: `BRANCH_REG R9`. -/
theorem test_B7_branch_reg :
    (after (start 0xD61F0120 [(9, 0xFFFFFFFFFFFFFFFC)] (nzcv 0b0000) [])).map (fun t => (t.flags, t.pc))
      = some ((nzcv 0b0000), 0xFFFFFFFFFFFFFFFC) := by decide

/-- Row B8 of 95_test_vectors.md: `BRANCH_REG R9`. -/
theorem test_B8_branch_reg :
    (after (start 0xD6000120 [(9, 0x1012)] (nzcv 0b0000) [])).map (fun t => (t.flags, t.pc))
      = some ((nzcv 0b0000), 0x1012) := by decide

/-- Row B9 of 95_test_vectors.md: `BRANCH_COND_EQ #+12`. -/
theorem test_B9_branch_cond_eq :
    (after (start 0x54000060 [] (nzcv 0b0100) [])).map (fun t => (t.flags, t.pc))
      = some ((nzcv 0b0100), 0x100C) := by decide

/-- Row B26 of 95_test_vectors.md: `BRANCH_COND_EQ #-0x100000`. -/
theorem test_B26_branch_cond_eq :
    (after (start 0x54800000 [] (nzcv 0b0100) [])).map (fun t => (t.flags, t.pc))
      = some ((nzcv 0b0100), 0xFFFFFFFFFFF01000) := by decide

/-- Row B11 of 95_test_vectors.md: `BRANCH_COND_NE #+12`. -/
theorem test_B11_branch_cond_ne :
    (after (start 0x54000061 [] (nzcv 0b0000) [])).map (fun t => (t.flags, t.pc))
      = some ((nzcv 0b0000), 0x100C) := by decide

/-- Row B12 of 95_test_vectors.md: `BRANCH_COND_NE #+12`. -/
theorem test_B12_branch_cond_ne :
    (after (start 0x54000061 [] (nzcv 0b0100) [])).map (fun t => (t.flags, t.pc))
      = some ((nzcv 0b0100), 0x1004) := by decide

/-- Row B13 of 95_test_vectors.md: `BRANCH_COND_GE #+12`. -/
theorem test_B13_branch_cond_ge :
    (after (start 0x5400006A [] (nzcv 0b0000) [])).map (fun t => (t.flags, t.pc))
      = some ((nzcv 0b0000), 0x100C) := by decide

/-- Row B16 of 95_test_vectors.md: `BRANCH_COND_GE #+12`. -/
theorem test_B16_branch_cond_ge :
    (after (start 0x5400006A [] (nzcv 0b1001) [])).map (fun t => (t.flags, t.pc))
      = some ((nzcv 0b1001), 0x1004) := by decide

/-- Row B17 of 95_test_vectors.md: `BRANCH_COND_LT #+12`. -/
theorem test_B17_branch_cond_lt :
    (after (start 0x5400006B [] (nzcv 0b1000) [])).map (fun t => (t.flags, t.pc))
      = some ((nzcv 0b1000), 0x100C) := by decide

/-- Row B18 of 95_test_vectors.md: `BRANCH_COND_LT #+12`. -/
theorem test_B18_branch_cond_lt :
    (after (start 0x5400006B [] (nzcv 0b0001) [])).map (fun t => (t.flags, t.pc))
      = some ((nzcv 0b0001), 0x1004) := by decide

/-- Row B19 of 95_test_vectors.md: `BRANCH_COND_GT #+12`. -/
theorem test_B19_branch_cond_gt :
    (after (start 0x5400006C [] (nzcv 0b0010) [])).map (fun t => (t.flags, t.pc))
      = some ((nzcv 0b0010), 0x100C) := by decide

/-- Row B21 of 95_test_vectors.md: `BRANCH_COND_GT #+12`. -/
theorem test_B21_branch_cond_gt :
    (after (start 0x5400006C [] (nzcv 0b1000) [])).map (fun t => (t.flags, t.pc))
      = some ((nzcv 0b1000), 0x1004) := by decide

/-- Row B22 of 95_test_vectors.md: `BRANCH_COND_LE #+12`. -/
theorem test_B22_branch_cond_le :
    (after (start 0x5400006D [] (nzcv 0b0100) [])).map (fun t => (t.flags, t.pc))
      = some ((nzcv 0b0100), 0x100C) := by decide

/-- Row B24 of 95_test_vectors.md: `BRANCH_COND_LE #+12`. -/
theorem test_B24_branch_cond_le :
    (after (start 0x5400006D [] (nzcv 0b0011) [])).map (fun t => (t.flags, t.pc))
      = some ((nzcv 0b0011), 0x1004) := by decide

/-- Row B31 of 95_test_vectors.md: `CMP_BRANCH_ZERO R3, #+8`. -/
theorem test_B31_cmp_branch_zero :
    (after (start 0xB4000043 [(3, 0x8000000000000000)] (nzcv 0b0100) [])).map (fun t => (t.flags, t.pc))
      = some ((nzcv 0b0100), 0x1004) := by decide

/-- Row B30 of 95_test_vectors.md: `CMP_BRANCH_ZERO R3, #+8`. -/
theorem test_B30_cmp_branch_zero :
    (after (start 0xB4000043 [(3, 0x0)] (nzcv 0b0000) [])).map (fun t => (t.flags, t.pc))
      = some ((nzcv 0b0000), 0x1008) := by decide

/-- Row B33 of 95_test_vectors.md: `CMP_BRANCH_NONZERO R1, #-8`. -/
theorem test_B33_cmp_branch_nonzero :
    (after (start 0xB5FFFFC1 [(1, 0x10000000000)] (nzcv 0b0100) [])).map (fun t => (t.flags, t.pc))
      = some ((nzcv 0b0100), 0xFF8) := by decide

/-- Row B34 of 95_test_vectors.md: `CMP_BRANCH_NONZERO R1, #-8`. -/
theorem test_B34_cmp_branch_nonzero :
    (after (start 0xB5FFFFC1 [(1, 0x0)] (nzcv 0b0000) [])).map (fun t => (t.flags, t.pc))
      = some ((nzcv 0b0000), 0x1004) := by decide

/-- Row S1 of 95_test_vectors.md: `HALT`. -/
theorem test_S1_halt :
    (after (start 0xD4400000 [(5, 0x9)] (nzcv 0b1010) [])).map (fun t => (readReg t 5, t.flags, t.pc, t.run))
      = some (0x9, (nzcv 0b1010), 0x1004, false) := by decide

/-- Row S2 of 95_test_vectors.md: `HALT (w[20:5] all ones)`. -/
theorem test_S2_halt :
    (after (start 0xD45FFFE0 [] (nzcv 0b0000) [])).map (fun t => (t.flags, t.pc, t.run))
      = some ((nzcv 0b0000), 0x1004, false) := by decide

/-- Row S5 of 95_test_vectors.md: `INVALID`. -/
theorem test_S5_invalid :
    (after (start 0xD503201F [(5, 0x9)] (nzcv 0b1010) [])).map (fun t => (readReg t 5, t.flags, t.pc, t.invalidSeen))
      = some (0x9, (nzcv 0b1010), 0x1004, true) := by decide

/-- Row B29 of 95_test_vectors.md: `INVALID`. -/
theorem test_B29_invalid :
    (after (start 0x54000062 [] (nzcv 0b0100) [])).map (fun t => (t.flags, t.pc, t.invalidSeen))
      = some ((nzcv 0b0100), 0x1004, true) := by decide

/-- Row M17 of 95_test_vectors.md: `INVALID`. -/
theorem test_M17_invalid :
    (after (start 0xF8808024 [(1, 0x2000)] (nzcv 0b0000) [])).map (fun t => (readReg t 4, t.flags, t.pc, t.invalidSeen))
      = some (0x0, (nzcv 0b0000), 0x1004, true) := by decide

/-- Follow-on to B8: the step after a misaligned branch target stops before its fetch. -/
theorem test_B8_next_step :
    (after (start 0xD6000120 [(9, 0x1012)] (nzcv 0) [])).bind (fun t => faultOf (step t))
      = some (.misaligned 0x1012) := by decide

/-- R28: no step after `HALT`; R211: reset leads out. -/
theorem test_halted :
    (after (start 0xD4400000 [] (nzcv 0) [])).bind (fun t => faultOf (step t)) = some .halted ∧
    ((after (start 0xD4400000 [] (nzcv 0) [])).bind fun t => nextOf (clockEdge true t)).map
      (fun t => (t.run, t.pc)) = some (true, 0x1000) := by decide

/-- Program P5 under `INVALID_POLICY = stop`: the run ends after the `INVALID` word, `run` still 1. -/
theorem test_invalid_stop :
    (after (withParams (start 0xD503201F [] (nzcv 0) []) smallStop)).map
      (fun t => (t.pc, t.run, faultOf (step t))) = some (0x1004, true, some .stoppedAfterInvalid) := by decide

/-- R195: an access outside `MEM_DOMAIN` stops, at the first word or at the second. -/
theorem test_unbacked_stops :
    faultOf (step (withParams (start 0x38408026 [(1, 0x2000)] (nzcv 0) []) smallStop))
      = some (.unbacked 0x2008) ∧
    faultOf (step (withParams (start 0xF8000022 [(1, 0x1FFC)] (nzcv 0) []) smallStop))
      = some (.unbacked 0x2000) := by decide

/-- R36, R216: the transactions of M1 in their order, and the outputs of S5. -/
theorem test_ports :
    transactions false (start 0xF8008022 [(1, 0x2000), (2, 0x1122334455667788)] (nzcv 0) [])
      = [.read 0x1000 0xF8008022, .write 0x2008 0x55667788, .write 0x200C 0x11223344] ∧
    tagOut false (start 0xF8008022 [] (nzcv 0) []) = some .storeWord ∧
    invalidOut false (start 0xD503201F [] (nzcv 0) []) = true ∧
    invalidOut true (start 0xD503201F [] (nzcv 0) []) = false := by decide

/-- Words and operands of the programs of 95_test_vectors.md, Part 3, and of rows A9 and A20. -/
theorem test_assembler :
    assemble (.subImmFlags 1 1 ⟨1, false⟩) = some 0xF1000421 ∧
    assemble (.cmpBranchNonzero 1 (-8)) = some 0xB5FFFFC1 ∧
    assemble (.shiftLeft 2 2 48) = some 0xD3100042 ∧
    assemble (.shiftRight 7 5 1) = some 0xD301FCA7 ∧
    assemble (.addImm 1 2 ⟨1, true⟩) = some 0x91400441 ∧
    assemble (.loadHalf 5 1 12) = some 0x7840C025 ∧
    assemble (.branchCondGt 12) = some 0x5400006C ∧
    assemble (.multiply 6 4 5) = some 0x9B050086 ∧
    assemble .halt = some 0xD4400000 := by decide

/-- R67: operands out of range are refused. -/
theorem test_assembler_refuses :
    assemble (.subRegFlags 31 1 2) = none ∧ assemble (.addImm 1 2 ⟨4096, false⟩) = none ∧
    assemble (.shiftLeft 0 1 0) = none ∧ assemble (.shiftRight 0 1 64) = none ∧
    assemble (.storeWord 0 1 512) = none ∧ assemble (.branchUncond 2) = none ∧
    assemble (.branchUncond 0x8000000) = none := by decide

/-- The stored word is the memory's four bytes, lowest address first (R38), in canonical form. -/
theorem test_memory_bytes :
    writeWord [] 0x2008 0x55660088 = [(0x2008, 0x88), (0x200A, 0x66), (0x200B, 0x55)] ∧
    writeWord [(0x2008, 0x88)] 0x2008 0 = [] := by decide


/-! ## Witnesses: for each obligation with hypotheses, what meets them; a clause of its own has one too -/

/-- The state of row M1, whose word stores at 0x2008. -/
def m1 : State := start 0xF8008022 [(1, 0x2000), (2, 0x1122334455667788)] (nzcv 0) []

/-- A state whose `x[1]` is the address of the next instruction, 0x1004. -/
def overNext : State := start 0xF8000022 [(1, 0x1004), (2, 0xD4400000)] (nzcv 0) []

/-- A halted core. -/
def stopped : State := clearRun State.reset

theorem accessible_of_bits {p : Params} {a : Dword} (h : accessFault p a = none) : Accessible p a :=
  (accessFault_none_iff p a).1 h

theorem fullDomain_default : FullDomain Params.default := fun a _ => backed_default a

theorem test_witness_DecodeOfEncodeIsTheInstruction :
    (Instr.subRegFlags 30 31 31).wellFormed = true ∧ Instr.halt.wellFormed = true := by decide

theorem test_witness_DecodedInstructionIsWellFormedAndTagged :
    decode 0xEB00001E#32 = .ok (.subRegFlags 30 0 0) ∧ decodeTag 0x54000009#32 = .invalid := by decide

theorem test_witness_MatchMaskTableAgreesWithTheDecoder :
    (∃ row ∈ opcodeTable, rowSelects row 0xD300F800#32 = true ∧ row.tag = .shiftLeft) ∧
    ∀ row ∈ opcodeTable, rowSelects row 0x54000009#32 = false := by decide

theorem test_witness_DontCareBitsAreIgnored :
    decodeTag 0x9B050086#32 ≠ .invalid ∧
    0x9B050086#32 &&& careMask (decodeTag 0x9B050086#32) =
      0x9B057C86#32 &&& careMask (decodeTag 0x9B050086#32) ∧
    (0xD33C0020#32).extractLsb' 24 8 = 0xD3#8 ∧ 0xD33C0020#32 &&& 0xFF3F03FF#32 = 0xD37CEC20#32 &&& 0xFF3F03FF#32 ∧
    ((0xD33C0020#32).extractLsb' 10 6 = 0x3F#6 ↔ (0xD37CEC20#32).extractLsb' 10 6 = 0x3F#6) := by decide

theorem test_witness_SignExtensionKeepsTheSignedValue :
    1 ≤ 1 ∧ 1 ≤ 64 ∧ 64 ≤ 64 := by decide

theorem test_witness_AddRegWritesTheSum : (0x8B020020#32).extractLsb' 24 8 = 0x8B#8 := by decide

theorem test_witness_AddRegFlagsWritesTheSumAndFlags : (0xAB050083#32).extractLsb' 24 8 = 0xAB#8 := by
  decide

theorem test_witness_AddImmWritesTheSum : (0x913FFC41#32).extractLsb' 24 8 = 0x91#8 := by decide

theorem test_witness_AddImmFlagsWritesTheSumAndFlags :
    (0xB1000421#32).extractLsb' 24 8 = 0xB1#8 ∧
    BitVec.ofNat 64 (if (0#2 : BitVec 2) = 1#2 then (1#12).toNat * 4096 else (1#12).toNat) = 1#64 ∧
    (addWithCarry 0x7FFFFFFFFFFFFFFF 1 false).2.v = true := by decide

theorem test_witness_SubRegFlagsAndCmpRegResults :
    (0xEB00001E#32).extractLsb' 24 8 = 0xEB#8 ∧ (0xEB00001E#32).extractLsb' 0 5 ≠ 31#5 ∧
    (0xEB00001F#32).extractLsb' 24 8 = 0xEB#8 ∧ (0xEB00001F#32).extractLsb' 0 5 = 31#5 := by decide

theorem test_witness_SubImmFlagsAndCmpImmResults :
    (0xF1000421#32).extractLsb' 24 8 = 0xF1#8 ∧ (0xF1000421#32).extractLsb' 0 5 ≠ 31#5 ∧
    (0xF140047F#32).extractLsb' 24 8 = 0xF1#8 ∧ (0xF140047F#32).extractLsb' 0 5 = 31#5 ∧
    BitVec.ofNat 64 (if (1#2 : BitVec 2) = 1#2 then (0xFFF#12).toNat * 4096 else (0xFFF#12).toNat)
      = 0xFFF000#64 := by decide

theorem test_witness_AddCarryFlagsAddsTheCommittedCarry : (0xBA030025#32).extractLsb' 24 8 = 0xBA#8 := by
  decide

theorem test_witness_MultiplyAddsTheProductToRegister31 : (0x9B1F03FF#32).extractLsb' 24 8 = 0x9B#8 := by
  decide

theorem test_witness_AndFlagsWritesNAndZOnly : (0xEA1F03FF#32).extractLsb' 24 8 = 0xEA#8 := by decide

theorem test_witness_EorAndOrrResults :
    (0xCA010020#32).extractLsb' 24 8 = 0xCA#8 ∧ (0xAA020020#32).extractLsb' 24 8 = 0xAA#8 ∧
    readReg State.reset 31 = 0#64 := by decide

theorem test_witness_MoveWideImmZeroExtends : (0xD2E00000#32).extractLsb' 24 8 = 0xD2#8 := by decide

theorem test_witness_ShiftLeftMultipliesByAPowerOfTwo :
    (0xD300F800#32).extractLsb' 24 8 = 0xD3#8 ∧ (0xD300F800#32).extractLsb' 10 6 ≠ 0x3F#6 ∧
    (0xD300F800#32).extractLsb' 16 6 = 0#6 := by decide

theorem test_witness_ShiftRightDividesByAPowerOfTwo :
    (0xD3C0FC00#32).extractLsb' 24 8 = 0xD3#8 ∧ (0xD3C0FC00#32).extractLsb' 10 6 = 0x3F#6 := by decide

theorem test_witness_StoreWordWritesTwoWords :
    ((0xF8000000#32).extractLsb' 24 8 = 0xF8#8 ∧ (0xF8000000#32).extractLsb' 22 2 = 0#2) ∧
    (Accessible m1.params (effAddr m1 1 8) ∧ Accessible m1.params (effAddr m1 1 8 + 4#64)) ∧
    ¬ Aligned (effAddr m1 1 511) :=
  ⟨by decide, ⟨accessible_of_bits (by decide), accessible_of_bits (by decide)⟩,
    by unfold Aligned; decide⟩

theorem test_witness_LoadWordReadsTwoWords :
    ((0xF8600000#32).extractLsb' 24 8 = 0xF8#8 ∧ (0xF8600000#32).extractLsb' 22 2 = 1#2) ∧
    (Accessible m1.params (effAddr m1 1 508) ∧ Accessible m1.params (effAddr m1 1 508 + 4#64)) ∧
    ¬ Aligned (effAddr m1 1 511) :=
  ⟨by decide, ⟨accessible_of_bits (by decide), accessible_of_bits (by decide)⟩,
    by unfold Aligned; decide⟩

theorem test_witness_StoreByteAndHalfReplaceTheWholeWord :
    ((0x38000000#32).extractLsb' 24 8 = 0x38#8 ∧ (0x38000000#32).extractLsb' 22 2 = 0#2) ∧
    ((0x78000000#32).extractLsb' 24 8 = 0x78#8 ∧ (0x78000000#32).extractLsb' 22 2 = 0#2) ∧
    Accessible m1.params (effAddr m1 1 0) ∧ ¬ Aligned (effAddr m1 1 2) :=
  ⟨by decide, by decide, accessible_of_bits (by decide), by unfold Aligned; decide⟩

theorem test_witness_LoadByteAndHalfZeroExtend :
    ((0x38400000#32).extractLsb' 24 8 = 0x38#8 ∧ (0x38400000#32).extractLsb' 22 2 = 1#2) ∧
    ((0x78400000#32).extractLsb' 24 8 = 0x78#8 ∧ (0x78400000#32).extractLsb' 22 2 = 1#2) ∧
    Accessible m1.params (effAddr m1 1 0) ∧ ¬ Aligned (effAddr m1 1 1) :=
  ⟨by decide, by decide, accessible_of_bits (by decide), by unfold Aligned; decide⟩

/-- Each of the three stops of a load or store, at 0x2001, 0x2000 and the second word at 0x2000. -/
theorem test_witness_LoadsAndStoresStopExactlyAtBadAddresses :
    faultOf (exec (.loadByte 6 1 1) m1) = some (.misaligned 0x2001) ∧
    ¬ Aligned (effAddr m1 1 1) ∧
    faultOf (exec (.storeHalf 2 1 0) (withParams m1 smallStop)) = some (.unbacked 0x2000) ∧
    Aligned (effAddr m1 1 0) ∧ backed smallStop (effAddr m1 1 0) = false ∧
    faultOf (exec (.loadWord 2 0 0) (withParams (start 0 [(0, 0x1FFC)] (nzcv 0) []) smallStop))
      = some (.unbacked 0x2000) ∧
    accessFault smallStop 0x1FFC = none ∧ backed smallStop (0x1FFC + 4#64) = false :=
  ⟨by decide, by unfold Aligned; decide, by decide, by unfold Aligned; decide, by decide, by decide,
    by decide, by decide⟩

theorem test_witness_StoreWordThenLoadWordReturnsTheValue :
    (nextOf (exec (.storeWord 2 1 8) m1)).isSome = true := by decide

/-- Also with another base and offset for the same address, and for the next word. -/
theorem test_witness_MixedWidthAccesses :
    Accessible m1.params (effAddr m1 1 8 + 4#64) ∧
    (nextOf (exec (.storeByte 2 1 8) m1)).isSome = true ∧
    (nextOf (exec (.storeHalf 2 1 8) m1)).isSome = true ∧
    (nextOf (exec (.storeWord 2 1 8) m1)).isSome = true ∧
    effAddr (setReg m1 5 0x2008) 5 0 = effAddr (setReg m1 5 0x2008) 1 8 ∧
    effAddr m1 1 12 = effAddr m1 1 8 + 4#64 :=
  ⟨accessible_of_bits (by decide), by decide, by decide, by decide, by decide, by decide⟩

theorem test_witness_StoredWordIsFetchedByTheNextStep :
    effAddr overNext 1 0 = overNext.pc + 4#64 ∧ (nextOf (exec (.storeWord 2 1 0) overNext)).isSome = true ∧
    (nextOf (exec (.storeByte 2 1 0) overNext)).isSome = true ∧
    (nextOf (exec (.storeHalf 2 1 0) overNext)).isSome = true := by decide

/-- The clause on the high word: `x[5]` is the store's own address. -/
theorem test_witness_StoredWordIsFetchedByTheNextStep_high :
    effAddr (setReg m1 5 0x1000) 5 0 = (setReg m1 5 0x1000).pc ∧
    (nextOf (exec (.storeWord 2 5 0) (setReg m1 5 0x1000))).isSome = true := by decide

theorem test_witness_TransactionsAccountForMemory :
    (nextOf (exec (.storeWord 2 1 8) m1)).isSome = true ∧
    dataTransactions (.storeWord 2 1 8) m1 = [.write 0x2008 0x55667788, .write 0x200C 0x11223344] ∧
    (nextOf (exec (.loadByte 2 1 8) m1)).isSome = true ∧
    dataTransactions (.loadByte 2 1 8) m1 = [.read 0x2008 0] := by decide

theorem test_witness_BranchUncondAddsItsOffset :
    (0x17FFFFFF#32).extractLsb' 26 6 = 0b000101#6 := by decide

theorem test_witness_BranchRegJumpsToTheRegister :
    (0xD65F03C0#32).extractLsb' 24 8 = 0xD6#8 ∧
    ¬ Aligned (readReg (start 0xD6000120 [(9, 0x1012)] (nzcv 0) []) 9) ∧
    StepDue (start 0xD6000120 [(9, 0x1012)] (nzcv 0) []) :=
  ⟨by decide, by unfold Aligned; decide, by unfold StepDue; decide⟩

/-- One word for each condition. -/
theorem test_witness_ConditionalBranchesTestNAndZ :
    ∀ c ∈ [0x0#4, 0x1#4, 0xC#4, 0xB#4, 0xA#4, 0xD#4],
      (0x5400006#28 ++ c).extractLsb' 24 8 = 0x54#8 ∧ (0x5400006#28 ++ c).extractLsb' 0 4 = c := by
  decide

/-- A compare without and one with signed overflow. -/
theorem test_witness_PredicatesAfterACompare :
    (addWithCarry 5 (~~~7) true).2.v = false ∧
    (addWithCarry 0x8000000000000000 (~~~1) true).2.v = true := by decide

theorem test_witness_CompareAndBranchTestsTheWholeRegister :
    (0xB4000043#32).extractLsb' 24 8 = 0xB4#8 ∧ (0xB5FFFFC1#32).extractLsb' 24 8 = 0xB5#8 := by decide

theorem test_witness_OnlyBranchRegCanMisalignPc :
    Aligned (start 0xD6000120 [(9, 0x1012)] (nzcv 0) []).pc ∧
    (after (start 0xD6000120 [(9, 0x1012)] (nzcv 0) [])).map (fun t => t.pc.toNat % 4) = some 2 :=
  ⟨by unfold Aligned; decide, by decide⟩

theorem test_witness_NextPcRule :
    isControlTransfer .halt = false ∧ (nextOf (exec .halt State.reset)).isSome = true ∧
    decodeTag (readWord State.reset.mem State.reset.pc) = .invalid ∧
    (after State.reset).isSome = true := by decide

theorem test_witness_HaltClearsRun :
    ((0xD45FFFE0#32).extractLsb' 21 11 = 0x6A2#11 ∧ (0xD45FFFE0#32).extractLsb' 0 5 = 0#5) ∧
    (0xD4400001#32).extractLsb' 21 11 = 0x6A2#11 ∧ (0xD4400001#32).extractLsb' 0 5 ≠ 0#5 := by decide

theorem test_witness_InvalidWordIsANoOpWithASignal_mark :
    (after (markInvalid State.reset)).isSome = true ∧ (markInvalid State.reset).invalidSeen = true := by
  decide

/-- Under `advance` and under `stop`. -/
theorem test_witness_InvalidWordIsANoOpWithASignal :
    ∀ p ∈ [Params.default, smallStop], StepDue (withParams State.reset p) ∧
      Accessible (withParams State.reset p).params (withParams State.reset p).pc ∧
      decodeTag (readWord (withParams State.reset p).mem (withParams State.reset p).pc) = .invalid := by
  intro p hp
  rcases List.mem_pair.1 hp with rfl | rfl
  all_goals exact ⟨by unfold StepDue; decide, accessible_of_bits (by decide), by decide⟩

theorem test_witness_MarkRecordsTheInvalidSignal :
    (after State.reset).isSome = true ∧ (after m1).isSome = true := by decide

theorem test_witness_StepRunsTheDecodedInstruction :
    StepDue m1 ∧ Accessible m1.params m1.pc ∧
      decode (readWord m1.mem m1.pc) = .ok (.storeWord 2 1 8) :=
  ⟨by unfold StepDue; decide, accessible_of_bits (by decide), by decide⟩

theorem test_witness_HaltedCoreTakesNoStep : stopped.run = false := by decide

/-- A `pc` of 0x1012, and one of 0x2000 outside `MEM_DOMAIN`. -/
theorem test_witness_BadPcStopsTheStepBeforeTheFetch :
    (StepDue (jump State.reset 0x1012) ∧ ¬ Aligned (jump State.reset 0x1012).pc) ∧
    StepDue (jump (withParams State.reset smallStop) 0x2000) ∧
    Aligned (jump (withParams State.reset smallStop) 0x2000).pc ∧
    backed smallStop (jump (withParams State.reset smallStop) 0x2000).pc = false :=
  ⟨⟨by unfold StepDue; decide, by unfold Aligned; decide⟩, by unfold StepDue; decide,
    by unfold Aligned; decide, by decide⟩

/-- Both outcomes: M1 completes, M9 stops at its misaligned address. -/
theorem test_witness_StepIsTotalUpToMisalignedData :
    (StepDue m1 ∧ FullDomain m1.params ∧ Aligned m1.pc ∧ (after m1).isSome = true) ∧
    StepDue (start 0xF85FF024 [(1, 0x2000)] (nzcv 0) []) ∧
    Aligned (start 0xF85FF024 [(1, 0x2000)] (nzcv 0) []).pc ∧
    faultOf (step (start 0xF85FF024 [(1, 0x2000)] (nzcv 0) [])) = some (.misaligned 0x21FF) :=
  ⟨⟨by unfold StepDue; decide, fullDomain_default, by unfold Aligned; decide, by decide⟩,
    by unfold StepDue; decide, by unfold Aligned; decide, by decide⟩

/-- A halted state that a clock edge leads on from, an instruction on it, and two states of one memory. -/
theorem test_witness_ResetIsTheOnlyWayOutOfTheHaltedState :
    stopped.run = false ∧ (nextOf (clockEdge true stopped)).isSome = true ∧
    (nextOf (exec (.addReg 0 1 2) stopped)).isSome = true ∧
    stopped.mem = State.reset.mem ∧ stopped.params = State.reset.params ∧ stopped ≠ State.reset := by
  decide

theorem m1_inv : m1.Inv := by unfold State.Inv; decide

theorem test_witness_EveryStepKeepsMemoryCanonical :
    m1.Inv ∧ (nextOf (clockEdge false m1)).isSome = true ∧ (nextOf (clockEdge true m1)).isSome = true :=
  ⟨m1_inv, by decide, by decide⟩

theorem test_witness_CanonicalMemoriesReadingAlikeAreEqual :
    Memory.wf [(0, 1#8), (0xFFFFFFFFFFFFFFFF, 2#8)] := by decide

/-- An instruction for each of the three clauses with a condition; then the flags that leave `GT` and `LE`
to the other flag, and an offset other than 4. -/
theorem test_witness_FlagReadersAreExactlyTheListed :
    (Instr.addRegFlags 0 1 2).tag ≠ .addCarryFlags ∧
    (Instr.branchCondEq 0).tag ∉ [.branchCondGe, .branchCondLt, .branchCondGt, .branchCondLe] ∧
    (Instr.branchCondGe 0).tag ∉ [.branchCondEq, .branchCondNe, .branchCondGt, .branchCondLe] ∧
    Instr.branchCondLt 2 ∈ [Instr.branchCondGe 2, .branchCondLt 2] ∧ 2#19 ≠ 1#19 ∧
    m1.flags.z = false ∧ m1.flags.n = false := by decide

/-- Other flags before with the same `C`, for `ADD_CARRY_FLAGS`; any other flags for the rest. -/
theorem test_witness_FlagWritersAreExactlyTheListed :
    (nextOf (exec (.multiply 0 1 2) m1)).isSome = true ∧ writesNZCV (.multiply 0 1 2) = false ∧
    (Instr.multiply 0 1 2).tag ≠ .andFlags ∧
    (nextOf (exec (.andFlags 0 1 2) m1)).isSome = true ∧ (Instr.andFlags 0 1 2).tag = .andFlags ∧
    writesNZCV (.addCarryFlags 0 1 2) = true ∧ (nzcv 0b1101).c = m1.flags.c ∧
    writesNZCV (.cmpImm 1 0 5) = true := by decide

theorem test_witness_AtMostTheDestinationRegisterIsWritten :
    (nextOf (exec (.addReg 0 1 2) m1)).isSome = true ∧ destination (.addReg 0 1 2) ≠ some 31 := by decide

/-- A byte outside the two words of M1, at either side of them. -/
theorem test_witness_OnlyStoresChangeMemory :
    (nextOf (exec (.storeWord 2 1 8) m1)).isSome = true ∧
    dataAddress (.storeWord 2 1 8) = some (1, 8) ∧
    (∀ a ∈ [0x2007, 0x2010], ∀ k, k < 4 → a ≠ byteAddr (effAddr m1 1 8) k ∧
      a ≠ byteAddr (effAddr m1 1 8 + 4#64) k) ∧
    (Instr.halt).tag ∉ [.storeWord, .storeByte, .storeHalf] := by decide

theorem test_witness_AssembledWordsDecodeToTheirInstruction :
    asmInstr (.subRegFlags 30 1 2) = some (.subRegFlags 30 1 2) := by decide

/-- The last value of each range, and the first where it is not 0: the fields as R67 gives them. -/
theorem test_witness_AssembledOperandsMeanWhatIsWritten :
    asmInstr (.subRegFlags 30 31 31) = some (.subRegFlags 30 31 31) ∧
    asmInstr (.cmpImm 3 ⟨4095, true⟩) = some (.cmpImm 3 1 0xFFF) ∧
    asmInstr (.subImmFlags 30 1 ⟨4095, false⟩) = some (.subImmFlags 30 1 0 0xFFF) ∧
    asmInstr (.moveWideImm 31 65535) = some (.moveWideImm 31 0xFFFF) ∧
    asmInstr (.shiftLeft 0 1 64) = some (.shiftLeft 0 1 0) ∧
    asmInstr (.shiftLeft 0 1 1) = some (.shiftLeft 0 1 63) ∧
    asmInstr (.shiftRight 0 1 63) = some (.shiftRight 0 1 63) ∧
    asmInstr (.loadWord 4 1 511) = some (.loadWord 4 1 0x1FF) ∧
    asmInstr (.branchUncond (-0x8000000)) = some (.branchUncond 0x2000000) ∧
    asmInstr (.branchUncond 0x7FFFFFC) = some (.branchUncond 0x1FFFFFF) ∧
    asmInstr (.branchCondLe (-0x100000)) = some (.branchCondLe 0x40000) ∧
    asmInstr (.cmpBranchZero 3 0xFFFFC) = some (.cmpBranchZero 3 0x3FFFF) := by decide

end Sys2Proof.Tests
end

section
/-! What an instruction that completes leaves behind, said once for all of `exec`: the shape of its next
state. The rules on `pc` (R16, R18), on registers (R13, R22) and on a step that cannot begin (R28, R35)
follow from it and from the shared operations' laws. -/

namespace Sys2Proof.Machine

open Sys2Proof

/-! ## A step that stops before its fetch completes -/

theorem stepFault_halted {s : State} (h : s.run = false) : stepFault s = some .halted := by
  simp [stepFault, h]

theorem step_of_stepFault {s : State} {f : Fault} (h : stepFault s = some f) :
    step s = .fault f := by
  simp [step, h]

theorem transactions_of_stepFault {s : State} {f : Fault} (h : stepFault s = some f) :
    transactions false s = [] := by
  simp [transactions, fetchedWord, h]

theorem fetch_of_accessFault {s : State} {f : Fault} (h : accessFault s.params s.pc = some f) :
    fetch s = .error f :=
  memRead_error_iff.2 h

theorem step_of_fetch_fault {s : State} {f : Fault} (hd : StepDue s)
    (h : accessFault s.params s.pc = some f) : step s = .fault f := by
  simp [step, (stepFault_none_iff s).2 hd, fetch_of_accessFault h]

theorem transactions_of_fetch_fault {s : State} {f : Fault} (hd : StepDue s)
    (h : accessFault s.params s.pc = some f) : transactions false s = [] := by
  simp [transactions, fetchedWord, (stepFault_none_iff s).2 hd, fetch_of_accessFault h]

/-! ## Branch targets -/

theorem Aligned.add {a b : Dword} (ha : Aligned a) (hb : Aligned b) : Aligned (a + b) := by
  unfold Aligned at *
  rw [BitVec.toNat_add]
  omega

/-- Sign extension from at least two bits keeps the two zeros that a shift by 2 puts in. -/
theorem aligned_sext_shiftLeft {N : Nat} (hN : 2 ≤ N) (v : Dword) : Aligned (sext N (v <<< 2)) := by
  rw [← low_bits_zero_iff]
  ext j hj
  have hjN : j < N := by omega
  simp [sext, BitVec.getLsbD_signExtend, hjN, hj]

theorem aligned_offset26 (imm26 : BitVec 26) : Aligned (offset26 imm26) :=
  aligned_sext_shiftLeft (by decide) _

theorem aligned_offset19 (imm19 : BitVec 19) : Aligned (offset19 imm19) :=
  aligned_sext_shiftLeft (by decide) _

/-! ## The next states of an instruction -/

/-- The next states an instruction `i` can have from `s`, by what it writes. -/
inductive Completes (i : Instr) (s : State) : State → Prop where
  | writeReg {d : RegIdx} (v : Dword) (hd : destination i = some d)
      (hc : isControlTransfer i = false) : Completes i s (advance (setReg s d v))
  | writeRegFlags {d : RegIdx} (v : Dword) (f : Flags) (hd : destination i = some d)
      (hc : isControlTransfer i = false) : Completes i s (advance (setFlags (setReg s d v) f))
  | writeFlags (f : Flags) (hc : isControlTransfer i = false) : Completes i s (advance (setFlags s f))
  | storeWord (a : Dword) (v : Word) (hc : isControlTransfer i = false) :
      Completes i s (advance (setWord s a v))
  | storeTwoWords (a b : Dword) (v w : Word) (hc : isControlTransfer i = false) :
      Completes i s (advance (setWord (setWord s a v) b w))
  | clearRun (hc : isControlTransfer i = false) : Completes i s (advance (clearRun s))
  | branch (taken : Bool) {off : Dword} (ho : Aligned off) (hc : isControlTransfer i = true) :
      Completes i s (jump s (if taken then s.pc + off else s.pc + 4#64))
  | jumpReg (n : RegIdx) (hi : i = .branchReg n) : Completes i s (jump s (readReg s n))

namespace Completes

variable {i : Instr} {s u : State} {d : RegIdx} {a v off : Dword} {f : Flags} {r : Dword × Flags}
  {w : Word} {pick : Word → Dword} {b : Bool}

theorem of_completeReg (hd : destination i = some d) (hc : isControlTransfer i = false)
    (h : completeReg s d v = .next u) : Completes i s u :=
  Host.Outcome.next.inj h ▸ .writeReg v hd hc

theorem of_completeRegFlags (hd : destination i = some d) (hc : isControlTransfer i = false)
    (h : completeRegFlags s d r = .next u) : Completes i s u :=
  Host.Outcome.next.inj h ▸ .writeRegFlags r.1 r.2 hd hc

theorem of_completeFlags (hc : isControlTransfer i = false) (h : completeFlags s f = .next u) :
    Completes i s u :=
  Host.Outcome.next.inj h ▸ .writeFlags f hc

theorem of_loadNarrow (hd : destination i = some d) (hc : isControlTransfer i = false)
    (h : loadNarrow s d a pick = .next u) : Completes i s u := by
  obtain ⟨-, rfl⟩ := loadNarrow_next_iff.1 h
  exact .writeReg _ hd hc

theorem of_loadPair (hd : destination i = some d) (hc : isControlTransfer i = false)
    (h : loadPair s d a = .next u) : Completes i s u := by
  obtain ⟨-, -, rfl⟩ := loadPair_next_iff.1 h
  exact .writeReg _ hd hc

theorem of_storeNarrow (hc : isControlTransfer i = false) (h : storeNarrow s a w = .next u) :
    Completes i s u := by
  obtain ⟨-, rfl⟩ := storeNarrow_next_iff.1 h
  exact .storeWord _ _ hc

theorem of_storePair (hc : isControlTransfer i = false) (h : storePair s a v = .next u) :
    Completes i s u := by
  obtain ⟨-, -, rfl⟩ := storePair_next_iff.1 h
  exact .storeTwoWords _ _ _ _ hc

theorem of_branchIf (ho : Aligned off) (hc : isControlTransfer i = true)
    (h : branchIf s b off = .next u) : Completes i s u :=
  Host.Outcome.next.inj ((branchIf_eq s b off).symm.trans h) ▸ .branch b ho hc

end Completes

theorem exec_completes {i : Instr} {s t : State} (h : exec i s = .next t) : Completes i s t := by
  cases i with
  | addReg | addImm | multiply | eor | orr | moveWideImm | shiftLeft | shiftRight =>
    exact .of_completeReg rfl rfl h
  | addRegFlags | addImmFlags | subRegFlags | subImmFlags | addCarryFlags | andFlags =>
    exact .of_completeRegFlags rfl rfl h
  | cmpReg | cmpImm => exact .of_completeFlags rfl h
  | loadByte | loadHalf => exact .of_loadNarrow rfl rfl h
  | loadWord => exact .of_loadPair rfl rfl h
  | storeByte | storeHalf => exact .of_storeNarrow rfl h
  | storeWord => exact .of_storePair rfl h
  | branchUncond => exact .of_branchIf (aligned_offset26 _) rfl h
  | branchCondEq | branchCondNe | branchCondGt | branchCondLt | branchCondGe | branchCondLe
  | cmpBranchZero | cmpBranchNonzero =>
    exact .of_branchIf (aligned_offset19 _) rfl h
  | branchReg n => exact Host.Outcome.next.inj h ▸ .jumpReg n rfl
  | halt => exact Host.Outcome.next.inj h ▸ .clearRun rfl

theorem Completes.pc_eq {i : Instr} {s t : State} (h : Completes i s t)
    (hc : isControlTransfer i = false) : t.pc = s.pc + 4#64 := by
  cases h with
  | writeReg | writeRegFlags | writeFlags | storeWord | storeTwoWords | clearRun => rfl
  | branch _ _ hc' => simp [hc] at hc'
  | jumpReg _ hi => subst hi; cases hc

/-- An aligned `pc` stays aligned, unless a `BRANCH_REG` replaces it (R18). -/
theorem Completes.aligned_pc_or_branchReg {i : Instr} {s t : State} (h : Completes i s t)
    (ha : Aligned s.pc) : Aligned t.pc ∨ ∃ n, i = .branchReg n ∧ t.pc = readReg s n := by
  cases h with
  | writeReg | writeRegFlags | writeFlags | storeWord | storeTwoWords | clearRun =>
    exact .inl (aligned_add_four.2 ha)
  | branch taken ho =>
    cases taken with
    | true => exact .inl (ha.add ho)
    | false => exact .inl (aligned_add_four.2 ha)
  | jumpReg n hi => exact .inr ⟨n, hi, rfl⟩

theorem Completes.readReg_eq {i : Instr} {s t : State} (h : Completes i s t) {k : RegIdx}
    (hk : destination i ≠ some k) : readReg t k = readReg s k := by
  cases h with
  | writeReg v hd | writeRegFlags v _ hd =>
    exact readReg_setReg_ne s _ v fun e => hk (e ▸ hd)
  | writeFlags | storeWord | storeTwoWords | clearRun | branch | jumpReg => rfl

/-- R64, R182: a word tagged `INVALID` is rejected by the decoder. -/
theorem decode_of_invalid {w : Word} (h : decodeTag w = .invalid) :
    decode w = .error (.invalid w) :=
  decode_of_tag h

/-! ## The statements -/

/-- Settles O46: the halted core stops in the step's first check, and only `applyReset` sets `run`. -/
theorem haltedCoreTakesNoStep : Obligations.HaltedCoreTakesNoStep := by
  intro s hrun
  have hf := stepFault_halted hrun
  exact ⟨step_of_stepFault hf, step_of_stepFault hf, transactions_of_stepFault hf,
    applyReset s, rfl, rfl⟩

/-- Settles O47: the fetch's access check names the fault, before any transaction. -/
theorem badPcStopsTheStepBeforeTheFetch : Obligations.BadPcStopsTheStepBeforeTheFetch := by
  intro s hdue
  refine ⟨fun hmis => ?_, fun hal hout => ?_⟩
  · have hf := accessFault_misaligned (p := s.params) hmis
    exact ⟨step_of_fetch_fault hdue hf, transactions_of_fetch_fault hdue hf⟩
  · have hf := accessFault_unbacked hal hout
    exact ⟨step_of_fetch_fault hdue hf, transactions_of_fetch_fault hdue hf⟩

/-- Settles O40: every other completion adds 4 or an aligned offset to an aligned `pc`, and so does the
`INVALID` event. -/
theorem onlyBranchRegCanMisalignPc : Obligations.OnlyBranchRegCanMisalignPc := by
  intro s t ha hstep hmis
  obtain ⟨-, -, ⟨i, hdec, hexec⟩ | ⟨e, -, rfl⟩⟩ := step_next_cases hstep
  · obtain hal | ⟨n, rfl, hpc⟩ := (exec_completes hexec).aligned_pc_or_branchReg ha
    · exact absurd hal hmis
    · exact ⟨n, hdec, hpc⟩
  · exact absurd (aligned_add_four.2 ha) hmis

/-- Settles O41: `pc + 4` by the completions' shapes, and by the `INVALID` event's. -/
theorem nextPcRule : Obligations.NextPcRule := by
  refine ⟨fun i s t hc hexec => (exec_completes hexec).pc_eq hc, fun s t hstep htag => ?_⟩
  obtain ⟨-, -, ⟨i, hdec, -⟩ | ⟨e, -, rfl⟩⟩ := step_next_cases hstep
  · simp [decode_of_invalid htag] at hdec
  · rfl

/-- Settles O57: a completion writes a register only by `setReg` at the destination. -/
theorem atMostTheDestinationRegisterIsWritten : Obligations.AtMostTheDestinationRegisterIsWritten :=
  fun _ _ _ hexec _ hk => (exec_completes hexec).readReg_eq hk

end Sys2Proof.Machine
end

section
/-! What the loads and stores do to memory, said once for the port: a 64-bit datum read back after its
store (R37), and the account that an instruction's listed transactions give of memory (R31, R32, R36,
R41), per shared operation and then for all of `exec`. -/

namespace Sys2Proof.Machine

open Sys2Proof

/-! ## A 64-bit datum as two words -/

theorem dword_of_halves (v : Dword) : v.extractLsb' 32 32 ++ v.extractLsb' 0 32 = v := by
  rw [BitVec.extractLsb'_append_extractLsb'_eq_extractLsb' (by rfl)]
  exact BitVec.extractLsb'_eq_self

/-- The write of a datum's high word leaves its low word as written (R37). -/
@[simp] theorem readWord_writeWord_next (m : Memory) (a : Dword) (lo hi : Word) :
    readWord (writeWord (writeWord m a lo) (a + 4#64) hi) a = lo := by
  rw [readWord_writeWord_apart _ hi (apart_next a), readWord_writeWord_same]

/-- After a 64-bit store, a 64-bit load from the same address completes with the stored datum. -/
theorem loadPair_of_storePair {s s1 : State} {a v : Dword} (h : storePair s a v = .next s1)
    (u : RegIdx) : loadPair s1 u a = .next (advance (setReg s1 u v)) := by
  obtain ⟨hlo, hhi, rfl⟩ := storePair_next_iff.1 h
  exact loadPair_next_iff.2 ⟨hlo, hhi, by simp [dword_of_halves]⟩

/-! ## The account of memory by transactions -/

/-- A transaction of the completion from `s` to `t` is at an accessible address; a read gives what `s`
holds there, a written word is what `t` holds there. -/
def Transaction.Observed (s t : State) : Transaction → Prop
  | .read addr data => Accessible s.params addr ∧ data = readWord s.mem addr
  | .write addr data => Accessible s.params addr ∧ readWord t.mem addr = data

/-- The transactions `trs` account for the memory of a completion from `s` to `t`. -/
structure AccountedFor (trs : List Transaction) (s t : State) : Prop where
  mem_eq : t.mem = applyTransactions trs s.mem
  length_le : trs.length ≤ 2
  observed : ∀ tr ∈ trs, tr.Observed s t

namespace AccountedFor

variable {s t : State} {d : RegIdx} {a v off : Dword} {w : Word} {pick : Word → Dword} {taken : Bool}

theorem of_mem_eq (h : t.mem = s.mem) : AccountedFor [] s t :=
  ⟨h, Nat.zero_le 2, by simp⟩

theorem of_branchIf (h : branchIf s taken off = .next t) : AccountedFor [] s t :=
  of_mem_eq (Host.Outcome.next.inj ((branchIf_eq s taken off).symm.trans h) ▸ rfl)

theorem of_loadNarrow (h : loadNarrow s d a pick = .next t) :
    AccountedFor [.read a (readWord s.mem a)] s t := by
  obtain ⟨ha, rfl⟩ := loadNarrow_next_iff.1 h
  exact ⟨rfl, Nat.le_succ 1, by simp [Transaction.Observed, ha]⟩

theorem of_loadPair (h : loadPair s d a = .next t) :
    AccountedFor [.read a (readWord s.mem a), .read (a + 4#64) (readWord s.mem (a + 4#64))] s t := by
  obtain ⟨hlo, hhi, rfl⟩ := loadPair_next_iff.1 h
  exact ⟨rfl, Nat.le_refl 2, by simp [Transaction.Observed, hlo, hhi]⟩

theorem of_storeNarrow (h : storeNarrow s a w = .next t) : AccountedFor [.write a w] s t := by
  obtain ⟨ha, rfl⟩ := storeNarrow_next_iff.1 h
  exact ⟨rfl, Nat.le_succ 1, by simp [Transaction.Observed, ha]⟩

/-- Both written words read back, the first one because the second is apart from it. -/
theorem of_storePair (h : storePair s a v = .next t) :
    AccountedFor [.write a (v.extractLsb' 0 32), .write (a + 4#64) (v.extractLsb' 32 32)] s t := by
  obtain ⟨hlo, hhi, rfl⟩ := storePair_next_iff.1 h
  exact ⟨rfl, Nat.le_refl 2, by simp [Transaction.Observed, hlo, hhi]⟩

end AccountedFor

/-- An instruction that completes does to memory what its listed transactions say, and no more. -/
theorem exec_accountedFor {i : Instr} {s t : State} (h : exec i s = .next t) :
    AccountedFor (dataTransactions i s) s t := by
  cases i with
  | addReg | addImm | multiply | eor | orr | moveWideImm | shiftLeft | shiftRight | addRegFlags
  | addImmFlags | subRegFlags | subImmFlags | addCarryFlags | andFlags | cmpReg | cmpImm | branchReg
  | halt =>
    exact .of_mem_eq (Host.Outcome.next.inj h ▸ rfl)
  | branchUncond | branchCondEq | branchCondNe | branchCondGt | branchCondLt | branchCondGe
  | branchCondLe | cmpBranchZero | cmpBranchNonzero =>
    exact .of_branchIf h
  | loadByte | loadHalf => exact .of_loadNarrow h
  | loadWord => exact .of_loadPair h
  | storeByte | storeHalf => exact .of_storeNarrow h
  | storeWord => exact .of_storePair h

/-! ## The statements -/

/-- Settles O31: a store leaves the base register as it was, so the load has the store's address. -/
theorem storeWordThenLoadWordReturnsTheValue :
    Obligations.StoreWordThenLoadWordReturnsTheValue := by
  intro t u n imm9 s s1 hstore
  have hbase : effAddr s1 n imm9 = effAddr s n imm9 := by
    obtain ⟨-, -, rfl⟩ := storePair_next_iff.1 hstore
    rfl
  refine ⟨advance (setReg s1 u (readReg s t)), ?_, by simp⟩
  change loadPair s1 u (effAddr s1 n imm9) = _
  rw [hbase]
  exact loadPair_of_storePair hstore u

/-- Settles O34: the account of `exec`'s transactions, taken apart by the kind of each. -/
theorem transactionsAccountForMemory : Obligations.TransactionsAccountForMemory := by
  intro i s t hexec
  obtain ⟨hmem, hlen, hobs⟩ := exec_accountedFor hexec
  refine ⟨hmem, hlen, fun tr htr => ?_⟩
  have htr_obs := hobs tr htr
  constructor <;> (rintro addr data rfl; exact htr_obs)

end Sys2Proof.Machine
end

section
/-! The canonical words read back (R58, R68): every field of an encoded format is the operand put there,
so decoding an instruction's word gives the instruction. The converse side: what a decoded word says of
its instruction (R62), and the assembler's instructions as well-formed ones (R67). -/

namespace Sys2Proof

open Sys2Proof.Machine Sys2Proof.Laws

/-! ## The fields of a canonical word -/

theorem fieldN_encodeR (p : BitVec 8) (d n m : RegIdx) : fieldN (encodeR p d n m) = n :=
  slice_eq_of_toNat (by rw [toNat_encodeR]; omega)

theorem fieldM_encodeR (p : BitVec 8) (d n m : RegIdx) : fieldM (encodeR p d n m) = m :=
  slice_eq_of_toNat (by rw [toNat_encodeR]; omega)

theorem fieldN_encodeI (p : BitVec 8) (d n : RegIdx) (sh : BitVec 2) (imm12 : BitVec 12) :
    fieldN (encodeI p d n sh imm12) = n :=
  slice_eq_of_toNat (by rw [toNat_encodeI]; omega)

theorem fieldSh_encodeI (p : BitVec 8) (d n : RegIdx) (sh : BitVec 2) (imm12 : BitVec 12) :
    fieldSh (encodeI p d n sh imm12) = sh :=
  slice_eq_of_toNat (by rw [toNat_encodeI]; omega)

theorem fieldImm12_encodeI (p : BitVec 8) (d n : RegIdx) (sh : BitVec 2) (imm12 : BitVec 12) :
    fieldImm12 (encodeI p d n sh imm12) = imm12 :=
  slice_eq_of_toNat (by rw [toNat_encodeI]; omega)

theorem fieldD_encodeW (d : RegIdx) (imm16 : BitVec 16) : fieldD (encodeW d imm16) = d :=
  slice_eq_of_toNat (by rw [toNat_encodeW]; omega)

theorem fieldImm16_encodeW (d : RegIdx) (imm16 : BitVec 16) : fieldImm16 (encodeW d imm16) = imm16 :=
  slice_eq_of_toNat (by rw [toNat_encodeW]; omega)

theorem fieldD_encodeS (imms : BitVec 6) (d n : RegIdx) (immr : BitVec 6) :
    fieldD (encodeS imms d n immr) = d :=
  slice_eq_of_toNat (by rw [toNat_encodeS]; omega)

theorem fieldN_encodeS (imms : BitVec 6) (d n : RegIdx) (immr : BitVec 6) :
    fieldN (encodeS imms d n immr) = n :=
  slice_eq_of_toNat (by rw [toNat_encodeS]; omega)

theorem fieldImmr_encodeS (imms : BitVec 6) (d n : RegIdx) (immr : BitVec 6) :
    fieldImmr (encodeS imms d n immr) = immr :=
  slice_eq_of_toNat (by rw [toNat_encodeS]; omega)

theorem fieldD_encodeM (p : BitVec 8) (opc : BitVec 2) (t n : RegIdx) (imm9 : BitVec 9) :
    fieldD (encodeM p opc t n imm9) = t :=
  slice_eq_of_toNat (by rw [toNat_encodeM]; omega)

theorem fieldN_encodeM (p : BitVec 8) (opc : BitVec 2) (t n : RegIdx) (imm9 : BitVec 9) :
    fieldN (encodeM p opc t n imm9) = n :=
  slice_eq_of_toNat (by rw [toNat_encodeM]; omega)

theorem fieldImm9_encodeM (p : BitVec 8) (opc : BitVec 2) (t n : RegIdx) (imm9 : BitVec 9) :
    fieldImm9 (encodeM p opc t n imm9) = imm9 :=
  slice_eq_of_toNat (by rw [toNat_encodeM]; omega)

theorem fieldImm26_encodeB (imm26 : BitVec 26) : fieldImm26 (encodeB imm26) = imm26 :=
  slice_eq_of_toNat (by rw [toNat_encodeB]; omega)

theorem fieldImm19_encodeC (cond : BitVec 4) (imm19 : BitVec 19) :
    fieldImm19 (encodeC cond imm19) = imm19 :=
  slice_eq_of_toNat (by rw [toNat_encodeC]; omega)

theorem fieldD_encodeZ (p : BitVec 8) (t : RegIdx) (imm19 : BitVec 19) :
    fieldD (encodeZ p t imm19) = t :=
  slice_eq_of_toNat (by rw [toNat_encodeZ]; omega)

theorem fieldImm19_encodeZ (p : BitVec 8) (t : RegIdx) (imm19 : BitVec 19) :
    fieldImm19 (encodeZ p t imm19) = imm19 :=
  slice_eq_of_toNat (by rw [toNat_encodeZ]; omega)

theorem fieldN_encodeJ (n : RegIdx) : fieldN (encodeJ n) = n :=
  slice_eq_of_toNat (by rw [toNat_encodeJ]; omega)

/-! ## Decoding a canonical word -/

/-- The statements `EncodeTag` of each instruction, as one (R58, R68). -/
theorem decodeTag_encode : ∀ {i : Instr}, i.wellFormed = true → decodeTag (encode i) = i.tag
  | .addReg .., h => EncodeTag.addReg _ _ _ h
  | .addRegFlags .., h => EncodeTag.addRegFlags _ _ _ h
  | .addImm .., h => EncodeTag.addImm _ _ _ _ h
  | .addImmFlags .., h => EncodeTag.addImmFlags _ _ _ _ h
  | .subRegFlags .., h => EncodeTag.subRegFlags _ _ _ h
  | .cmpReg .., h => EncodeTag.cmpReg _ _ h
  | .subImmFlags .., h => EncodeTag.subImmFlags _ _ _ _ h
  | .cmpImm .., h => EncodeTag.cmpImm _ _ _ h
  | .addCarryFlags .., h => EncodeTag.addCarryFlags _ _ _ h
  | .multiply .., h => EncodeTag.multiply _ _ _ h
  | .andFlags .., h => EncodeTag.andFlags _ _ _ h
  | .eor .., h => EncodeTag.eor _ _ _ h
  | .orr .., h => EncodeTag.orr _ _ _ h
  | .moveWideImm .., h => EncodeTag.moveWideImm _ _ h
  | .shiftLeft .., h => EncodeTag.shiftLeft _ _ _ h
  | .shiftRight .., h => EncodeTag.shiftRight _ _ _ h
  | .storeWord .., h => EncodeTag.storeWord _ _ _ h
  | .loadWord .., h => EncodeTag.loadWord _ _ _ h
  | .storeByte .., h => EncodeTag.storeByte _ _ _ h
  | .loadByte .., h => EncodeTag.loadByte _ _ _ h
  | .storeHalf .., h => EncodeTag.storeHalf _ _ _ h
  | .loadHalf .., h => EncodeTag.loadHalf _ _ _ h
  | .branchUncond .., h => EncodeTag.branchUncond _ h
  | .branchReg .., h => EncodeTag.branchReg _ h
  | .branchCondEq .., h => EncodeTag.branchCondEq _ h
  | .branchCondNe .., h => EncodeTag.branchCondNe _ h
  | .branchCondGt .., h => EncodeTag.branchCondGt _ h
  | .branchCondLt .., h => EncodeTag.branchCondLt _ h
  | .branchCondGe .., h => EncodeTag.branchCondGe _ h
  | .branchCondLe .., h => EncodeTag.branchCondLe _ h
  | .cmpBranchZero .., h => EncodeTag.cmpBranchZero _ _ h
  | .cmpBranchNonzero .., h => EncodeTag.cmpBranchNonzero _ _ h
  | .halt, h => EncodeTag.halt h

/-- Under its own tag, the fields of an instruction's canonical word are the instruction's operands. -/
theorem fieldsOf_encode (i : Instr) : fieldsOf i.tag (encode i) = .ok i := by
  cases i with
  | addReg | addRegFlags | subRegFlags | addCarryFlags | multiply | andFlags | eor | orr | cmpReg =>
    simp [Instr.tag, fieldsOf, encode, fieldD_encodeR, fieldN_encodeR, fieldM_encodeR]
  | addImm | addImmFlags | subImmFlags | cmpImm =>
    simp [Instr.tag, fieldsOf, encode, fieldD_encodeI, fieldN_encodeI, fieldSh_encodeI,
      fieldImm12_encodeI]
  | moveWideImm => simp [Instr.tag, fieldsOf, encode, fieldD_encodeW, fieldImm16_encodeW]
  | shiftLeft | shiftRight =>
    simp [Instr.tag, fieldsOf, encode, fieldD_encodeS, fieldN_encodeS, fieldImmr_encodeS]
  | storeWord | loadWord | storeByte | loadByte | storeHalf | loadHalf =>
    simp [Instr.tag, fieldsOf, encode, fieldD_encodeM, fieldN_encodeM, fieldImm9_encodeM]
  | branchUncond => simp [Instr.tag, fieldsOf, encode, fieldImm26_encodeB]
  | branchReg => simp [Instr.tag, fieldsOf, encode, fieldN_encodeJ]
  | branchCondEq | branchCondNe | branchCondGt | branchCondLt | branchCondGe | branchCondLe =>
    simp [Instr.tag, fieldsOf, encode, fieldImm19_encodeC]
  | cmpBranchZero | cmpBranchNonzero =>
    simp [Instr.tag, fieldsOf, encode, fieldD_encodeZ, fieldImm19_encodeZ]
  | halt => rfl

theorem decode_encode {i : Instr} (h : i.wellFormed = true) : decode (encode i) = .ok i :=
  (decode_of_tag (decodeTag_encode h)).trans (fieldsOf_encode i)

/-! ## What a decoded word says of its instruction -/

/-- The instruction read under a tag is executed under that tag. -/
theorem tag_of_fieldsOf {t : Tag} {w : Word} {i : Instr} (h : fieldsOf t w = .ok i) : i.tag = t := by
  cases t <;> cases h <;> rfl

/-- The words of `SUB_REG_FLAGS` and `SUB_IMM_FLAGS` have a destination other than 31 (R62). -/
theorem wellFormed_of_fieldsOf {t : Tag} {w : Word} {i : Instr} (hw : WordsOf w t)
    (h : fieldsOf t w = .ok i) : i.wellFormed = true := by
  cases t
  case subRegFlags | subImmFlags => cases h; exact bne_iff_ne.2 hw.2
  case invalid => cases h
  all_goals cases h; rfl

theorem fieldsOf_error_iff {t : Tag} {w : Word} : (∃ e, fieldsOf t w = .error e) ↔ t = .invalid := by
  cases t <;> simp [fieldsOf]

/-! ## The assembler -/

theorem wellFormed_of_asmNot31 {d : RegIdx} {i j : Instr} (h : asmNot31 d i = some j)
    (hi : d ≠ 31#5 → i.wellFormed = true) : j.wellFormed = true := by
  obtain ⟨hd, hij⟩ := (Option.ite_none_left_eq_some ..).1 h
  exact Option.some.inj hij ▸ hi hd

theorem wellFormed_of_asmInstr {a : Asm} {i : Instr} (h : asmInstr a = some i) :
    i.wellFormed = true := by
  cases a with
  | addReg | addRegFlags | addCarryFlags | andFlags | eor | orr | multiply | cmpReg | branchReg | halt =>
    cases h; rfl
  | subRegFlags => exact wellFormed_of_asmNot31 h bne_iff_ne.2
  | subImmFlags =>
    obtain ⟨f, -, h⟩ := Option.bind_eq_some_iff.1 h
    exact wellFormed_of_asmNot31 h bne_iff_ne.2
  | shiftLeft =>
    obtain ⟨-, h⟩ := (Option.ite_none_right_eq_some ..).1 h
    cases h; rfl
  | addImm | addImmFlags | cmpImm | moveWideImm | shiftRight | storeWord | loadWord | storeByte
  | loadByte | storeHalf | loadHalf | branchUncond | branchCondEq | branchCondNe | branchCondGt
  | branchCondLt | branchCondGe | branchCondLe | cmpBranchZero | cmpBranchNonzero =>
    obtain ⟨f, -, rfl⟩ := Option.map_eq_some_iff.1 h
    rfl
  | word => cases h

/-- The assembler's word of a form is the canonical word of its instruction (R68). -/
theorem assemble_of_asmInstr {a : Asm} {i : Instr} (h : asmInstr a = some i) :
    assemble a = some (encode i) := by
  cases a
  case word => cases h
  all_goals exact congrArg (Option.map encode) h

/-! ## The statements -/

/-- Settles O1: the canonical word has the instruction's tag, and the fields read under it are the
operands. -/
theorem decodeOfEncodeIsTheInstruction : Obligations.DecodeOfEncodeIsTheInstruction :=
  fun _ h => decode_encode h

/-- Settles O2: the words of the tag have the fields that well-formedness asks for. -/
theorem decodedInstructionIsWellFormedAndTagged :
    Obligations.DecodedInstructionIsWellFormedAndTagged :=
  ⟨fun w _ h => ⟨wellFormed_of_fieldsOf (wordsOf_decodeTag w) h, tag_of_fieldsOf h⟩,
    fun _ => fieldsOf_error_iff⟩

/-- Settles O59: the assembler gives the canonical word of a well-formed instruction. -/
theorem assembledWordsDecodeToTheirInstruction :
    Obligations.AssembledWordsDecodeToTheirInstruction := fun _ i h =>
  have hwf := wellFormed_of_asmInstr h
  ⟨hwf, encode i, assemble_of_asmInstr h, decode_encode hwf⟩

end Sys2Proof
end

section
/-! The assembler's operands (R67): each in range gives a field, and the field executes as the operand
written (R53 to R57). -/

namespace Sys2Proof.Machine

open Sys2Proof

/-! ## The field of an operand in range -/

theorem asmUnsigned_of_lt {len k : Nat} (h : k < 2 ^ len) :
    asmUnsigned len k = some (BitVec.ofNat len k) :=
  if_pos h

theorem asmImmFields_of_le {k : Nat} (h : k ≤ 4095) (l : Bool) :
    asmImmFields ⟨k, l⟩ = some (if l then 1#2 else 0#2, BitVec.ofNat 12 k) :=
  if_pos h

theorem asmOffset_of_range {len : Nat} {off : Int} (h4 : off % 4 = 0) (hlo : -2 ^ (len + 1) ≤ off)
    (hhi : off < 2 ^ (len + 1)) : asmOffset len off = some (BitVec.ofInt len (off / 4)) :=
  if_pos ⟨h4, hlo, hhi⟩

theorem asmNot31_of_ne {d : RegIdx} (h : d ≠ 31#5) (i : Instr) : asmNot31 d i = some i :=
  if_neg h

/-! ## The operand a field executes as -/

/-- The immediate of `#k` is `k`, that of `#k, LSL12` is `k * 4096` (R53). -/
theorem toNat_immOperand_ofNat {k : Nat} (h : k ≤ 4095) (l : Bool) :
    (immOperand (if l then 1#2 else 0#2) (BitVec.ofNat 12 k)).toNat = if l then k * 4096 else k := by
  cases l with
  | false =>
    simp [immOperand]
    omega
  | true =>
    simp [immOperand, Nat.shiftLeft_eq]
    omega

theorem leftAmount_ofNat {a : Nat} (h1 : 1 ≤ a) (h64 : a ≤ 64) :
    leftAmount (BitVec.ofNat 6 (64 - a)) = a := by
  rw [leftAmount, BitVec.toNat_ofNat]
  omega

theorem rightAmount_ofNat {a : Nat} (h : a ≤ 63) : rightAmount (BitVec.ofNat 6 a) = a := by
  rw [rightAmount, BitVec.toNat_ofNat]
  omega

theorem effAddr_ofNat (s : State) (n : RegIdx) {k : Nat} (h : k ≤ 511) :
    effAddr s n (BitVec.ofNat 9 k) = readReg s n + BitVec.ofNat 64 k := by
  rw [effAddr, BitVec.setWidth_ofNat_of_le_of_lt (by decide) (by omega)]

/-- A field with two zero bits below it is four times the field, so its sign extension is four times the
signed field (R56). -/
theorem toInt_sext_shiftLeft_two {len : Nat} (hlen : len + 2 ≤ 64) (f : BitVec len) :
    (sext (len + 2) (f.setWidth 64 <<< 2)).toInt = 4 * f.toInt := by
  have hbits : (f.setWidth 64 <<< 2).setWidth (len + 2) = f ++ 0#2 := by
    ext i hi
    by_cases h2 : i < 2
    · simp [BitVec.getElem_append, h2]
    · have hf : i - 2 < len := by omega
      have h64 : i < 64 := by omega
      simp [BitVec.getElem_append, h2, BitVec.getLsbD_eq_getElem hf, h64]
  rw [sext, hbits, BitVec.toInt_signExtend_of_le hlen, BitVec.toInt_append_zero]
  rfl

theorem toInt_offset26 (imm26 : BitVec 26) : (offset26 imm26).toInt = 4 * imm26.toInt :=
  toInt_sext_shiftLeft_two (by decide) imm26

theorem toInt_offset19 (imm19 : BitVec 19) : (offset19 imm19).toInt = 4 * imm19.toInt :=
  toInt_sext_shiftLeft_two (by decide) imm19

/-- The field of a byte offset in range is the offset's quarter, as a signed number. -/
theorem four_mul_toInt_ofInt {len : Nat} (hlen : 0 < len) {off : Int} (h4 : off % 4 = 0)
    (hlo : -2 ^ (len + 1) ≤ off) (hhi : off < 2 ^ (len + 1)) :
    4 * (BitVec.ofInt len (off / 4)).toInt = off := by
  obtain ⟨j, rfl⟩ : ∃ j, len = j + 1 := ⟨len - 1, by omega⟩
  rw [pow_succ, pow_succ] at hlo hhi
  rw [BitVec.toInt_ofInt_eq_self hlen (by simp; omega) (by simp; omega)]
  omega

theorem toInt_offset26_ofInt {off : Int} (h4 : off % 4 = 0) (hlo : -2 ^ 27 ≤ off) (hhi : off < 2 ^ 27) :
    (offset26 (BitVec.ofInt 26 (off / 4))).toInt = off :=
  (toInt_offset26 _).trans (four_mul_toInt_ofInt (by decide) h4 hlo hhi)

theorem toInt_offset19_ofInt {off : Int} (h4 : off % 4 = 0) (hlo : -2 ^ 20 ≤ off) (hhi : off < 2 ^ 20) :
    (offset19 (BitVec.ofInt 19 (off / 4))).toInt = off :=
  (toInt_offset19 _).trans (four_mul_toInt_ofInt (by decide) h4 hlo hhi)

/-! ## The statement -/

/-- Settles O60: the fields are those of the operands in range, by kind of operand; each executes as the
operand it was given for. -/
theorem assembledOperandsMeanWhatIsWritten : Obligations.AssembledOperandsMeanWhatIsWritten := by
  refine ⟨fun d n m => ?registers, fun d n k l hk => ?imm12, fun d k hk => ?imm16,
    fun d n a h1 h64 => ?left, fun d n a ha => ?right, fun t n k hk => ?imm9,
    fun off h4 hlo hhi => ?imm26, fun t off h4 hlo hhi => ?imm19⟩
  case registers => exact ⟨rfl, rfl, fun hd => asmNot31_of_ne hd _, rfl, rfl, rfl, rfl, rfl, rfl, rfl, rfl⟩
  case imm12 =>
    have hf := asmImmFields_of_le hk l
    refine ⟨_, _, ?_, ?_, fun hd => ?_, ?_, toNat_immOperand_ofNat hk l⟩
    case refine_3 => rw [asmInstr, hf]; exact asmNot31_of_ne hd _
    all_goals rw [asmInstr, hf]; rfl
  case imm16 =>
    have hk : k < 2 ^ 16 := by omega
    exact ⟨_, congrArg (Option.map _) (asmUnsigned_of_lt hk), Nat.mod_eq_of_lt hk⟩
  case left => exact ⟨_, if_pos ⟨h1, h64⟩, leftAmount_ofNat h1 h64⟩
  case right =>
    have hf := asmUnsigned_of_lt (len := 6) (k := a) (by omega)
    exact ⟨_, congrArg (Option.map _) hf, rightAmount_ofNat ha⟩
  case imm9 =>
    have hf := asmUnsigned_of_lt (len := 9) (k := k) (by omega)
    refine ⟨_, ?_, ?_, ?_, ?_, ?_, ?_, fun s => effAddr_ofNat s n hk⟩
    all_goals exact congrArg (Option.map _) hf
  case imm26 =>
    have hf := asmOffset_of_range (len := 26) h4 hlo hhi
    exact ⟨_, congrArg (Option.map _) hf, toInt_offset26_ofInt h4 hlo hhi⟩
  case imm19 =>
    have hf := asmOffset_of_range (len := 19) h4 hlo hhi
    refine ⟨_, ?_, ?_, ?_, ?_, ?_, ?_, ?_, ?_, toInt_offset19_ofInt h4 hlo hhi⟩
    all_goals exact congrArg (Option.map _) hf

end Sys2Proof.Machine
end

section
/-! The match/mask table (R63) as tests of fields: a masked comparison is a comparison of the fields that
the mask covers, so each row asks what the decoder's stages ask of its tag (R58, R59). -/

namespace Sys2Proof

/-! ## Masks as fields -/

/-- The mask of the field `w[lo + len - 1 : lo]`. -/
def fieldMask (lo len : Nat) : Word := (BitVec.allOnes len).setWidth 32 <<< lo

theorem getLsbD_fieldMask {lo len i : Nat} (hi : i < 32) :
    (fieldMask lo len).getLsbD i = (decide (lo ≤ i) && decide (i < lo + len)) := by
  by_cases hlo : lo ≤ i
  · have h : i - lo < len ↔ i < lo + len := by omega
    simp [fieldMask, hi, hlo, h]
  · simp [fieldMask, hlo]

/-- Two words agree under a field's mask exactly when they have the same field. -/
theorem and_fieldMask_eq_iff {lo len : Nat} (h : lo + len ≤ 32) (w q : Word) :
    w &&& fieldMask lo len = q &&& fieldMask lo len ↔ slice w lo len = slice q lo len := by
  simp only [BitVec.eq_of_getLsbD_eq_iff, BitVec.getLsbD_and, slice, BitVec.getLsbD_extractLsb']
  constructor
  · intro hw i hi
    have h32 : lo + i < 32 := by omega
    simpa [getLsbD_fieldMask h32, hi] using hw (lo + i) h32
  · intro hw i hi
    rw [getLsbD_fieldMask hi]
    by_cases hf : lo ≤ i ∧ i < lo + len
    · have hlen : i - lo < len := by omega
      simpa [hf, hlen] using hw (i - lo) hlen
    · have : (decide (lo ≤ i) && decide (i < lo + len)) = false := by simpa using hf
      simp [this]

/-- Two words agree under two masks together exactly when they agree under each. -/
theorem and_or_mask_eq_iff (w q m₁ m₂ : Word) :
    w &&& (m₁ ||| m₂) = q &&& (m₁ ||| m₂) ↔ w &&& m₁ = q &&& m₁ ∧ w &&& m₂ = q &&& m₂ := by
  have habs₁ : (m₁ ||| m₂) &&& m₁ = m₁ := by ext i; simp +contextual
  have habs₂ : (m₁ ||| m₂) &&& m₂ = m₂ := by ext i; simp +contextual
  refine ⟨fun h => ⟨?_, ?_⟩, fun ⟨h₁, h₂⟩ => ?_⟩
  · rw [← habs₁, ← BitVec.and_assoc, h, BitVec.and_assoc]
  · rw [← habs₂, ← BitVec.and_assoc, h, BitVec.and_assoc]
  · rw [BitVec.and_or_distrib_left, h₁, h₂, BitVec.and_or_distrib_left]

/-! ## Rows as tests -/

section Rows

variable {w p m m' q : Word} {t : Tag} {lo len lo' len' : Nat}

/-- A row without `unless`, whose match lies within its mask, asks for agreement under the mask. -/
theorem rowSelects_none_iff (hp : p &&& m = p) :
    rowSelects ⟨t, m, p, none⟩ w = true ↔ w &&& m = p &&& m := by
  simp [rowSelects, hp]

/-- A row whose mask is one field. -/
theorem rowSelects_field_iff (lo len : Nat) (h : lo + len ≤ 32) (hm : m = fieldMask lo len)
    (hp : p &&& m = p) :
    rowSelects ⟨t, m, p, none⟩ w = true ↔ slice w lo len = slice p lo len := by
  rw [rowSelects_none_iff hp, hm, and_fieldMask_eq_iff h]

/-- A row whose mask is two fields. -/
theorem rowSelects_two_fields_iff (lo len lo' len' : Nat) (h : lo + len ≤ 32) (h' : lo' + len' ≤ 32)
    (hm : m = fieldMask lo len ||| fieldMask lo' len') (hp : p &&& m = p) :
    rowSelects ⟨t, m, p, none⟩ w = true ↔
      slice w lo len = slice p lo len ∧ slice w lo' len' = slice p lo' len' := by
  rw [rowSelects_none_iff hp, hm, and_or_mask_eq_iff, and_fieldMask_eq_iff h, and_fieldMask_eq_iff h']

/-- A row that asks for one field's value, unless another field has a given one. -/
theorem rowSelects_unless_iff (lo len lo' len' : Nat) (h : lo + len ≤ 32) (h' : lo' + len' ≤ 32)
    (hm : m = fieldMask lo len) (hp : p &&& m = p) (hm' : m' = fieldMask lo' len')
    (hq : q &&& m' = q) :
    rowSelects ⟨t, m, p, some (m', q)⟩ w = true ↔
      slice w lo len = slice p lo len ∧ slice w lo' len' ≠ slice q lo' len' := by
  rw [← and_fieldMask_eq_iff h, Ne, ← and_fieldMask_eq_iff h', ← hm, ← hm', hp, hq]
  simp [rowSelects]

end Rows

/-! ## The table -/

/-- Each tag has at most one row. -/
theorem find_row_eq : ∀ row ∈ opcodeTable, opcodeTable.find? (·.tag = row.tag) = some row := by
  decide

/-- Each executable tag has a row. -/
theorem exists_row {t : Tag} (ht : t ≠ .invalid) : ∃ row ∈ opcodeTable, row.tag = t := by
  cases t
  case invalid => exact absurd rfl ht
  all_goals decide

/-- A row selects exactly the words of its tag. -/
theorem rowSelects_iff_wordsOf {row : OpcodeRow} (hrow : row ∈ opcodeTable) (w : Word) :
    rowSelects row w = true ↔ WordsOf w row.tag := by
  obtain ⟨t, m, p, u⟩ := row
  have hfind := find_row_eq _ hrow
  cases t <;> cases hfind
  case halt => exact rowSelects_two_fields_iff 21 11 0 5 (by decide) (by decide) rfl rfl
  case branchUncond => exact rowSelects_field_iff 26 6 (by decide) rfl rfl
  case branchCondEq | branchCondNe | branchCondGt | branchCondLt | branchCondGe | branchCondLe =>
    exact rowSelects_two_fields_iff 24 8 0 4 (by decide) (by decide) rfl rfl
  case cmpReg | cmpImm =>
    exact rowSelects_two_fields_iff 24 8 0 5 (by decide) (by decide) rfl rfl
  case shiftRight =>
    exact rowSelects_two_fields_iff 24 8 10 6 (by decide) (by decide) rfl rfl
  case storeWord | loadWord | storeByte | loadByte | storeHalf | loadHalf =>
    exact rowSelects_two_fields_iff 24 8 22 2 (by decide) (by decide) rfl rfl
  case subRegFlags | subImmFlags =>
    exact rowSelects_unless_iff 24 8 0 5 (by decide) (by decide) rfl rfl rfl rfl
  case shiftLeft =>
    exact rowSelects_unless_iff 24 8 10 6 (by decide) (by decide) rfl rfl rfl rfl
  all_goals exact rowSelects_field_iff 24 8 (by decide) rfl rfl

theorem row_tag_ne_invalid : ∀ row ∈ opcodeTable, row.tag ≠ .invalid := by
  decide

theorem rowSelects_iff_decodeTag {row : OpcodeRow} (hrow : row ∈ opcodeTable) (w : Word) :
    rowSelects row w = true ↔ decodeTag w = row.tag :=
  (rowSelects_iff_wordsOf hrow w).trans (decodeTag_eq_iff (row_tag_ne_invalid row hrow)).symm

/-- Settles O3: each row tests the fields that the decoder tests for its tag, and every executable tag has
a row. -/
theorem matchMaskTableAgreesWithTheDecoder : Obligations.MatchMaskTableAgreesWithTheDecoder := by
  intro w
  refine ⟨fun row hrow => rowSelects_iff_decodeTag hrow w, fun hinv row hrow => ?_, fun hnone => ?_⟩
  · rw [Bool.eq_false_iff, Ne, rowSelects_iff_decodeTag hrow, hinv]
    exact (row_tag_ne_invalid row hrow).symm
  · by_contra hvalid
    obtain ⟨row, hrow, htag⟩ := exists_row hvalid
    exact Bool.eq_false_iff.1 (hnone row hrow) ((rowSelects_iff_decodeTag hrow w).2 htag.symm)

end Sys2Proof
end

section
/-! The `INVALID` words (R64), stage by stage of the decoder (R58): each stage rejects by its own field,
and the primary byte says which stage decides (R59). -/

namespace Sys2Proof

/-! ## What each stage rejects -/

/-- The third stage's unmapped conditions (R60, R173). -/
theorem tagOfCond_eq_invalid_iff : ∀ cond : BitVec 4, tagOfCond cond = .invalid ↔
    cond ∈ [2#4, 3#4, 4#4, 5#4, 6#4, 7#4, 8#4, 9#4, 0xE#4, 0xF#4] := by
  decide

/-- The load/store selectors that name no tag (R60). -/
theorem tagOfOpc_eq_invalid_iff {store load : Tag} (hs : store ≠ .invalid) (hl : load ≠ .invalid)
    (opc : BitVec 2) : tagOfOpc opc store load = .invalid ↔ opc ∈ [2#2, 3#2] := by
  have hopc : ∀ o : BitVec 2, o = 0#2 ∨ o = 1#2 ∨ o = 2#2 ∨ o = 3#2 := by decide
  rcases hopc opc with rfl | rfl | rfl | rfl <;> simp [tagOfOpc, hs, hl]

/-- The primary bytes of the fourth stage (R58). -/
def stageFourBytes : List (BitVec 8) :=
  [0xAB#8, 0xB1#8, 0xEB#8, 0xF1#8, 0xEA#8, 0xCA#8, 0xAA#8, 0xD6#8, 0xD3#8, 0xF8#8, 0x38#8, 0x78#8,
    0xD2#8, 0x91#8, 0x8B#8, 0x9B#8, 0xB4#8, 0xB5#8, 0xBA#8]

/-- The fourth stage rejects the unlisted primary bytes, and the loads and stores without a selector. -/
theorem tagOfPrimary_eq_invalid_iff (w : Word) : tagOfPrimary w = .invalid ↔
    primary w ∉ stageFourBytes ∨
      primary w ∈ [0xF8#8, 0x38#8, 0x78#8] ∧ fieldSh w ∈ [2#2, 3#2] := by
  by_cases h : primary w ∈ stageFourBytes
  · simp only [stageFourBytes, List.mem_cons, List.not_mem_nil, or_false] at h
    rcases h with h | h | h | h | h | h | h | h | h | h | h | h | h | h | h | h | h | h | h <;>
      simp [tagOfPrimary, stageFourBytes, h, tagOfOpc_eq_invalid_iff, ite_eq_iff]
  · refine iff_of_true ?_ (.inl h)
    simp only [stageFourBytes, List.mem_cons, not_or] at h
    simp [tagOfPrimary, h]

/-! ## Which stage decides -/

/-- The second stage's words, by primary byte (R59). -/
theorem branch_of_primary {w : Word} (h : primary w ∈ [0x14#8, 0x15#8, 0x16#8, 0x17#8]) :
    slice w 26 6 = 0b000101#6 := by
  simp only [List.mem_cons, List.not_mem_nil, or_false, ← BitVec.toNat_inj, toNat_primary,
    BitVec.toNat_ofNat] at h
  refine slice_eq_of_toNat ?_
  rw [BitVec.toNat_ofNat]
  omega

/-- The first stage's test of a word whose primary byte is 0xD4 (R59). -/
theorem halt_test_of_primary {w : Word} (h : primary w = 0xD4#8) :
    slice w 21 11 = 0x6A2#11 ↔ slice w 21 3 = 0b010#3 := by
  have h := congrArg BitVec.toNat h
  simp only [← BitVec.toNat_inj, toNat_slice, toNat_primary, BitVec.toNat_ofNat] at h ⊢
  omega

/-- A word with primary byte 0xD4 is a `HALT` or `INVALID`: no later stage takes it. -/
theorem decodeTag_eq_invalid_iff_of_D4 {w : Word} (h : primary w = 0xD4#8) :
    decodeTag w = .invalid ↔ ¬ (slice w 21 3 = 0b010#3 ∧ fieldD w = 0#5) := by
  have hb : slice w 26 6 ≠ 0b000101#6 := fun e => by
    rcases primary_of_branch e with e | e | e | e <;> rw [h] at e <;> exact absurd e (by decide)
  have hp : tagOfPrimary w = .invalid := (tagOfPrimary_eq_invalid_iff w).2 (.inl (by rw [h]; decide))
  simp [decodeTag, halt_test_of_primary h, hb, h, hp]

/-- Settles O5: the primary byte says which stage decides, and each stage rejects by its own field. -/
theorem invalidWordsAreExactlyTheUnmappedOnes :
    Obligations.InvalidWordsAreExactlyTheUnmappedOnes := by
  intro w
  change decodeTag w = .invalid ↔ (primary w ∉ _ ∨ primary w = _ ∧ fieldCond w ∈ _ ∨
    primary w ∈ _ ∧ fieldSh w ∈ _ ∨ primary w = _ ∧ ¬ (slice w 21 3 = _ ∧ fieldD w = _))
  by_cases hD4 : primary w = 0xD4#8
  · rw [decodeTag_eq_invalid_iff_of_D4 hD4]
    simp [hD4]
  by_cases h54 : primary w = 0x54#8
  · rw [decodeTag_of_cond h54, tagOfCond_eq_invalid_iff]
    simp [h54]
  by_cases hb : primary w ∈ [0x14#8, 0x15#8, 0x16#8, 0x17#8]
  · rw [decodeTag_of_branch (branch_of_primary hb)]
    simp only [List.mem_cons, List.not_mem_nil, or_false] at hb
    rcases hb with hb | hb | hb | hb <;> simp [hb]
  · simp only [List.mem_cons, List.not_mem_nil, or_false, not_or] at hb
    obtain ⟨h14, h15, h16, h17⟩ := hb
    rw [decodeTag_of_primary ⟨hD4, h14, h15, h16, h17, h54⟩, tagOfPrimary_eq_invalid_iff]
    simp [stageFourBytes, hD4, h54, h14, h15, h16, h17]

end Sys2Proof
end

section
/-! The datapath units on numbers: the adder's result and flags from exact sums (R82), and the
sign-extension unit as a pattern and as a signed number (R86). -/

namespace Sys2Proof.Machine

open Sys2Proof

/-! ## The adder -/

theorem toNat_addWithCarry (x y : Dword) (cin : Bool) :
    (addWithCarry x y cin).1.toNat = (x.toNat + y.toNat + cin.toNat) % 2 ^ 64 :=
  BitVec.toNat_ofNat _ _

theorem addWithCarry_n (x y : Dword) (cin : Bool) :
    (addWithCarry x y cin).2.n = (addWithCarry x y cin).1.getLsbD 63 :=
  BitVec.msb_eq_getLsbD_last (addWithCarry x y cin).1

theorem addWithCarry_z_iff (x y : Dword) (cin : Bool) :
    (addWithCarry x y cin).2.z = true ↔ (addWithCarry x y cin).1 = 0#64 :=
  beq_iff_eq

theorem addWithCarry_c_iff (x y : Dword) (cin : Bool) :
    (addWithCarry x y cin).2.c = true ↔ 2 ^ 64 ≤ x.toNat + y.toNat + cin.toNat :=
  decide_eq_true_iff

theorem addWithCarry_v_iff (x y : Dword) (cin : Bool) :
    (addWithCarry x y cin).2.v = true ↔
      x.getLsbD 63 = y.getLsbD 63 ∧ (addWithCarry x y cin).1.getLsbD 63 ≠ x.getLsbD 63 := by
  simp [addWithCarry, BitVec.msb_eq_getLsbD_last]

/-! ## Sign extension -/

/-- The sign bit of the low `N` bits is bit `N - 1` (R86). -/
theorem msb_setWidth_of_pos {N : Nat} (hN : 0 < N) (v : Dword) :
    (v.setWidth N).msb = v.getLsbD (N - 1) := by
  rw [BitVec.msb_setWidth, decide_eq_true hN, Bool.true_and]

theorem toNat_sext {N : Nat} (h1 : 1 ≤ N) (h64 : N ≤ 64) (v : Dword) :
    (sext N v).toNat =
      if v.getLsbD (N - 1) then v.toNat % 2 ^ N + (2 ^ 64 - 2 ^ N) else v.toNat % 2 ^ N := by
  rw [sext, BitVec.toNat_signExtend, BitVec.toNat_setWidth_of_le h64, BitVec.toNat_setWidth,
    msb_setWidth_of_pos h1]
  split <;> rfl

theorem toInt_sext {N : Nat} (h1 : 1 ≤ N) (h64 : N ≤ 64) (v : Dword) :
    (sext N v).toInt =
      ((v.toNat % 2 ^ N : Nat) : Int) - (2 : Int) ^ N * ((v.getLsbD (N - 1)).toNat : Int) := by
  rw [sext, BitVec.toInt_signExtend_of_le h64, BitVec.toInt_eq_msb_cond, BitVec.toNat_setWidth,
    msb_setWidth_of_pos h1]
  cases v.getLsbD (N - 1) <;> simp

/-! ## The statements -/

/-- Settles O11: the extension has the low bits' signed value, and bit `N - 1` is their sign. -/
theorem signExtensionKeepsTheSignedValue : Obligations.SignExtensionKeepsTheSignedValue :=
  fun _ v h1 h64 => ⟨toNat_sext h1 h64 v, toInt_sext h1 h64 v⟩

/-- Settles O7: the result and the four flags, each from the exact sum. -/
theorem addWithCarryResultAndFlags : Obligations.AddWithCarryResultAndFlags :=
  fun x y cin => ⟨toNat_addWithCarry x y cin, addWithCarry_n x y cin, addWithCarry_z_iff x y cin,
    addWithCarry_c_iff x y cin, addWithCarry_v_iff x y cin⟩

end Sys2Proof.Machine
end

section
/-! What a step that is due at an accessible `pc` answers (R88, R89), and that with every address backed
it stops only at a misaligned data address (R191, R194). -/

namespace Sys2Proof.Machine

open Sys2Proof

/-! ## The step by what the decoder says -/

theorem step_of_decode {s : State} {i : Instr} (hdue : StepDue s) (ha : Accessible s.params s.pc)
    (hdec : decode (readWord s.mem s.pc) = .ok i) : step s = exec i s := by
  rw [step_eq ((stepFault_none_iff s).2 hdue) ha, hdec]

theorem step_of_decode_error {s : State} {e : DecodeError} (hdue : StepDue s)
    (ha : Accessible s.params s.pc) (hdec : decode (readWord s.mem s.pc) = .error e) :
    step s = .next (advance (markInvalid s)) := by
  rw [step_eq ((stepFault_none_iff s).2 hdue) ha, hdec]
  rfl

/-! ## The port with every address backed -/

/-- The answer is a next state, or the stop at `a`, which is misaligned. -/
def NextOrMisaligned (a : Dword) (r : Result) : Prop :=
  (∃ t, r = .next t) ∨ ¬ Aligned a ∧ r = .fault (.misaligned a)

theorem FullDomain.accessible {p : Params} (h : FullDomain p) {a : Dword} (ha : Aligned a) :
    Accessible p a :=
  ⟨ha, h a ha⟩

section
variable {s : State} (hdom : FullDomain s.params)
include hdom

theorem loadNarrow_nextOrMisaligned (t : RegIdx) (a : Dword) (pick : Word → Dword) :
    NextOrMisaligned a (loadNarrow s t a pick) := by
  by_cases ha : Aligned a
  · exact .inl ⟨_, loadNarrow_next_iff.2 ⟨hdom.accessible ha, rfl⟩⟩
  · exact .inr ⟨ha, loadNarrow_fault_iff.2 (accessFault_misaligned ha)⟩

theorem loadPair_nextOrMisaligned (t : RegIdx) (a : Dword) :
    NextOrMisaligned a (loadPair s t a) := by
  by_cases ha : Aligned a
  · exact .inl ⟨_, loadPair_next_iff.2
      ⟨hdom.accessible ha, hdom.accessible (aligned_add_four.2 ha), rfl⟩⟩
  · exact .inr ⟨ha, loadPair_fault_iff.2 (.inl (accessFault_misaligned ha))⟩

theorem storeNarrow_nextOrMisaligned (a : Dword) (v : Word) :
    NextOrMisaligned a (storeNarrow s a v) := by
  by_cases ha : Aligned a
  · exact .inl ⟨_, storeNarrow_next_iff.2 ⟨hdom.accessible ha, rfl⟩⟩
  · exact .inr ⟨ha, storeNarrow_fault_iff.2 (accessFault_misaligned ha)⟩

theorem storePair_nextOrMisaligned (a v : Dword) : NextOrMisaligned a (storePair s a v) := by
  by_cases ha : Aligned a
  · exact .inl ⟨_, storePair_next_iff.2
      ⟨hdom.accessible ha, hdom.accessible (aligned_add_four.2 ha), rfl⟩⟩
  · exact .inr ⟨ha, storePair_fault_iff.2 (.inl (accessFault_misaligned ha))⟩

/-- With every address backed, a load or store completes or stops at its own misaligned address. -/
theorem exec_nextOrMisaligned {i : Instr} {n : RegIdx} {k : BitVec 9}
    (hi : dataAddress i = some (n, k)) : NextOrMisaligned (effAddr s n k) (exec i s) := by
  cases i with
  | loadByte | loadHalf => cases hi; exact loadNarrow_nextOrMisaligned hdom _ _ _
  | loadWord => cases hi; exact loadPair_nextOrMisaligned hdom _ _
  | storeByte | storeHalf => cases hi; exact storeNarrow_nextOrMisaligned hdom _ _
  | storeWord => cases hi; exact storePair_nextOrMisaligned hdom _ _
  | _ => cases hi

end

/-- An instruction that is no load or store always completes (R101, R121, R160). -/
theorem exec_next_of_no_dataAddress {i : Instr} (hi : dataAddress i = none) (s : State) :
    ∃ t, exec i s = .next t := by
  cases i with
  | storeWord | loadWord | storeByte | loadByte | storeHalf | loadHalf => cases hi
  | _ => exact ⟨_, rfl⟩

/-! ## The statements -/

/-- Settles O48: the fetch and the `INVALID` event complete, and so does every instruction but a load or
store at a misaligned address. -/
theorem stepIsTotalUpToMisalignedData : Obligations.StepIsTotalUpToMisalignedData := by
  intro s hdue hdom hpc
  have ha := hdom.accessible hpc
  cases hdec : decode (readWord s.mem s.pc) with
  | error e => exact .inl ⟨_, step_of_decode_error hdue ha hdec⟩
  | ok i =>
    rw [step_of_decode hdue ha hdec]
    cases hi : dataAddress i with
    | none => exact .inl (exec_next_of_no_dataAddress hi s)
    | some nk =>
      obtain hnext | ⟨hmis, hfault⟩ := exec_nextOrMisaligned hdom hi
      · exact .inl hnext
      · exact .inr ⟨i, nk.1, nk.2, rfl, hi, hmis, hfault⟩

/-- Settles O45: of the step's cases, the one of an accessible fetch and a word that decodes. -/
theorem stepRunsTheDecodedInstruction : Obligations.StepRunsTheDecodedInstruction :=
  fun _ _ hdue ha hdec => step_of_decode hdue ha hdec

end Sys2Proof.Machine
end

section
/-! The arithmetic instructions (41_arithmetic.md): the words that decode to each, the whole next state of
a completion that writes a register, the flags or both, and the results as numbers (R53, R85, R118). -/

namespace Sys2Proof

/-- A word with the fields of an executable tag decodes under that tag (R58). -/
theorem decode_of_wordsOf {w : Word} {t : Tag} (ht : t ≠ .invalid) (h : WordsOf w t) :
    decode w = fieldsOf t w :=
  decode_of_tag ((decodeTag_eq_iff ht).2 h)

end Sys2Proof

namespace Sys2Proof.Machine

open Sys2Proof

/-! ## The whole next state of a completion -/

theorem wroteReg_setReg (s : State) (d : RegIdx) (v : Dword) : WroteReg s (setReg s d v) d v :=
  ⟨readReg_setReg_same s d v, fun _ hk => readReg_setReg_ne s d v hk⟩

theorem completeReg_regResult (s : State) (d : RegIdx) (v : Dword) :
    ∃ t, completeReg s d v = .next t ∧ RegResult s t d v s.flags :=
  ⟨_, rfl, wroteReg_setReg s d v, rfl, rfl, fun _ => rfl, rfl, rfl, rfl⟩

theorem completeRegFlags_regResult (s : State) (d : RegIdx) (r : Dword × Flags) :
    ∃ t, completeRegFlags s d r = .next t ∧ RegResult s t d r.1 r.2 :=
  ⟨_, rfl, wroteReg_setReg s d r.1, rfl, rfl, fun _ => rfl, rfl, rfl, rfl⟩

theorem completeFlags_flagResult (s : State) (f : Flags) :
    ∃ t, completeFlags s f = .next t ∧ FlagResult s t f :=
  ⟨_, rfl, fun _ => rfl, rfl, rfl, fun _ => rfl, rfl, rfl, rfl⟩

theorem RegResult.readReg_eq {s t : State} {d : RegIdx} {v : Dword} {f : Flags}
    (h : RegResult s t d v f) : readReg t d = v :=
  h.1.1

/-! ## The immediate operand -/

/-- The immediate of format `I` as a number: times 4096 exactly when `sh = 1` (R53). -/
theorem toNat_immOperand (sh : BitVec 2) (imm12 : BitVec 12) :
    (immOperand sh imm12).toNat = if sh = 1#2 then imm12.toNat * 4096 else imm12.toNat := by
  have := imm12.isLt
  unfold immOperand
  split
  · rw [BitVec.toNat_shiftLeft, BitVec.toNat_setWidth, Nat.shiftLeft_eq]
    omega
  · rw [BitVec.toNat_setWidth]
    omega

theorem immOperand_eq_ofNat (sh : BitVec 2) (imm12 : BitVec 12) :
    immOperand sh imm12 =
      BitVec.ofNat 64 (if sh = 1#2 then imm12.toNat * 4096 else imm12.toNat) := by
  rw [← toNat_immOperand, BitVec.ofNat_toNat, BitVec.setWidth_eq]

/-- The immediate is below 2^24, so never negative (R104, R106). -/
theorem getLsbD_immOperand_63 (sh : BitVec 2) (imm12 : BitVec 12) :
    (immOperand sh imm12).getLsbD 63 = false := by
  have := imm12.isLt
  rw [← BitVec.testBit_toNat, toNat_immOperand]
  apply Nat.testBit_lt_two_pow
  split <;> omega

/-- With a nonnegative second operand, signed overflow is from nonnegative to negative (R106). -/
theorem addWithCarry_v_of_nonneg {x y : Dword} {cin : Bool} (hy : y.getLsbD 63 = false)
    (hv : (addWithCarry x y cin).2.v = true) :
    x.getLsbD 63 = false ∧ (addWithCarry x y cin).1.getLsbD 63 = true := by
  obtain ⟨hxy, hr⟩ := (addWithCarry_v_iff x y cin).1 hv
  have hx : x.getLsbD 63 = false := hxy.trans hy
  rw [hx] at hr
  exact ⟨hx, Bool.eq_true_of_not_eq_false hr⟩

/-! ## Subtraction through the adder -/

/-- Adding the complement and 1 subtracts (R85). -/
theorem addWithCarry_not_true_fst (x y : Dword) : (addWithCarry x (~~~y) true).1 = x - y := by
  apply BitVec.eq_of_toNat_eq
  rw [toNat_addWithCarry, BitVec.toNat_sub, BitVec.toNat_not, Bool.toNat_true]
  have := y.isLt
  omega

/-- The carry out of a subtraction is "no borrow" (R85, R108). -/
theorem addWithCarry_not_true_c_iff (x y : Dword) :
    (addWithCarry x (~~~y) true).2.c = true ↔ y.toNat ≤ x.toNat := by
  rw [addWithCarry_c_iff, BitVec.toNat_not, Bool.toNat_true]
  have := y.isLt
  omega

/-! ## Multiply-add modulo 2^64 -/

theorem add_mul_eq_ofNat (a x y : Dword) :
    a + x * y = BitVec.ofNat 64 (a.toNat + x.toNat * y.toNat) := by
  simp only [BitVec.ofNat_add, BitVec.ofNat_mul, BitVec.ofNat_toNat, BitVec.setWidth_eq]

/-- The signed reading of multiply-add agrees modulo 2^64 (R118). -/
theorem toInt_add_mul_emod (a x y : Dword) :
    (a + x * y).toInt % 2 ^ 64 = (a.toInt + x.toInt * y.toInt) % 2 ^ 64 := by
  rw [BitVec.toInt_add, BitVec.toInt_mul, Int.add_bmod_bmod]
  exact Int.bmod_emod

/-! ## The statements -/

/-- Settles O16: the flags are the adder's, and the immediate's sign bit is 0. -/
theorem addImmFlagsWritesTheSumAndFlags : Obligations.AddImmFlagsWritesTheSumAndFlags := by
  refine ⟨fun w h => decode_of_wordsOf (t := .addImmFlags) (by decide) h,
    fun d n sh imm12 s imm himm => ?_⟩
  rw [← immOperand_eq_ofNat] at himm
  subst himm
  exact ⟨completeRegFlags_regResult s d _,
    addWithCarry_v_of_nonneg (getLsbD_immOperand_63 sh imm12)⟩

/-- Settles O17: the destination field selects the tag; both run the subtraction through the adder. -/
theorem subRegFlagsAndCmpRegResults : Obligations.SubRegFlagsAndCmpRegResults := by
  refine ⟨fun w h hd => decode_of_wordsOf (t := .subRegFlags) (by decide) ⟨h, hd⟩,
    fun w h hd => decode_of_wordsOf (t := .cmpReg) (by decide) ⟨h, hd⟩,
    fun d n m s => ?_, fun n m s => completeFlags_flagResult s _⟩
  obtain ⟨t, hexec, hres⟩ :=
    completeRegFlags_regResult s d (subWithFlags (readReg s n) (readReg s m))
  exact ⟨t, hexec, addWithCarry_not_true_fst _ _, addWithCarry_not_true_c_iff _ _, hres⟩

/-- Settles O18: the destination field selects the tag; the complement is of the 64-bit immediate. -/
theorem subImmFlagsAndCmpImmResults : Obligations.SubImmFlagsAndCmpImmResults := by
  refine ⟨fun w h hd => decode_of_wordsOf (t := .subImmFlags) (by decide) ⟨h, hd⟩,
    fun w h hd => decode_of_wordsOf (t := .cmpImm) (by decide) ⟨h, hd⟩,
    fun n sh imm12 s imm himm => ?_⟩
  rw [← immOperand_eq_ofNat] at himm
  subst himm
  exact ⟨fun d => completeRegFlags_regResult s d _, completeFlags_flagResult s _⟩

/-- Settles O20: the written register is `x[31] + x[n] * x[m]`, read unsigned and signed. -/
theorem multiplyAddsTheProductToRegister31 : Obligations.MultiplyAddsTheProductToRegister31 := by
  refine ⟨fun w h => decode_of_wordsOf (t := .multiply) (by decide) h, fun d n m s => ?_⟩
  obtain ⟨t, hexec, hres⟩ :=
    completeReg_regResult s d (readReg s 31#5 + readReg s n * readReg s m)
  refine ⟨t, hexec, ?_, ?_⟩
  · rw [← add_mul_eq_ofNat]
    exact hres
  · rw [hres.readReg_eq]
    exact toInt_add_mul_emod _ _ _

/-- Settles O13: the written sum is the sum of the numbers modulo 2^64. -/
theorem addRegWritesTheSum : Obligations.AddRegWritesTheSum := by
  refine ⟨fun w h => decode_of_wordsOf (t := .addReg) (by decide) h, fun d n m s => ?_⟩
  rw [← BitVec.add_def]
  exact completeReg_regResult s d _

/-- Settles O14: register and flags are the adder's, with carry in 0. -/
theorem addRegFlagsWritesTheSumAndFlags : Obligations.AddRegFlagsWritesTheSumAndFlags :=
  ⟨fun _ h => decode_of_wordsOf (t := .addRegFlags) (by decide) h,
    fun d _ _ s => completeRegFlags_regResult s d _⟩

/-- Settles O15: the sum with the immediate's number. -/
theorem addImmWritesTheSum : Obligations.AddImmWritesTheSum := by
  refine ⟨fun w h => decode_of_wordsOf (t := .addImm) (by decide) h, fun d n sh imm12 s => ?_⟩
  rw [← toNat_immOperand, ← BitVec.add_def]
  exact completeReg_regResult s d _

/-- Settles O19: register and flags are the adder's, with the carry of the state before. -/
theorem addCarryFlagsAddsTheCommittedCarry : Obligations.AddCarryFlagsAddsTheCommittedCarry :=
  ⟨fun _ h => decode_of_wordsOf (t := .addCarryFlags) (by decide) h,
    fun d _ _ s => completeRegFlags_regResult s d _⟩

end Sys2Proof.Machine
end

section
/-! The logical, move and right-shift instructions (42_logical_move_shift.md): each completes through
`completeReg` or `completeRegFlags`, with the written value in the form of its rule. -/

namespace Sys2Proof.Machine

open Sys2Proof

/-! ## The logical right shift as a number -/

/-- A logical right shift is floor division of the unsigned value (R130). -/
theorem ushiftRight_eq_ofNat (x : Dword) (k : Nat) :
    x >>> k = BitVec.ofNat 64 (x.toNat / 2 ^ k) := by
  rw [← Nat.shiftRight_eq_div_pow, ← BitVec.toNat_ushiftRight, BitVec.ofNat_toNat, BitVec.setWidth_eq]

/-! ## The flags of a conjunction -/

/-- `N` is bit 63 and `Z` is "the result is 0"; `C` and `V` stay (R120). -/
theorem logicFlags_eq (old : Flags) (r : Dword) :
    logicFlags old r =
      { n := r.getLsbD 63, z := decide (r = 0#64), c := old.c, v := old.v } := rfl

/-! ## The statements -/

/-- Settles O25: `imms` selects the tag; the shift is a division of the unsigned value. -/
theorem shiftRightDividesByAPowerOfTwo : Obligations.ShiftRightDividesByAPowerOfTwo := by
  refine ⟨fun w h himms => decode_of_wordsOf (t := .shiftRight) (by decide) ⟨h, himms⟩,
    fun d n immr s => ?_⟩
  rw [← ushiftRight_eq_ofNat]
  exact completeReg_regResult s d _

/-- Settles O21: the flags are those of the conjunction, with `C` and `V` of the state before. -/
theorem andFlagsWritesNAndZOnly : Obligations.AndFlagsWritesNAndZOnly := by
  refine ⟨fun w h => decode_of_wordsOf (t := .andFlags) (by decide) h, fun d n m s => ?_⟩
  rw [← logicFlags_eq]
  exact completeRegFlags_regResult s d _

/-- Settles O22: the identities are those of the written value. -/
theorem eorAndOrrResults : Obligations.EorAndOrrResults := by
  refine ⟨fun w h => decode_of_wordsOf (t := .eor) (by decide) h,
    fun w h => decode_of_wordsOf (t := .orr) (by decide) h, fun d n m s => ⟨?_, ?_⟩⟩
  · obtain ⟨t, hexec, hres⟩ := completeReg_regResult s d (readReg s n ^^^ readReg s m)
    refine ⟨t, hexec, hres, fun hnm => ?_⟩
    rw [hres.readReg_eq, hnm, BitVec.xor_self]
  · obtain ⟨t, hexec, hres⟩ := completeReg_regResult s d (readReg s n ||| readReg s m)
    refine ⟨t, hexec, hres, fun hzero => ?_, fun hnm => ?_⟩
    · rw [hres.readReg_eq, hzero, BitVec.or_zero]
    · rw [hres.readReg_eq, hnm, BitVec.or_self]

/-- Settles O23: the immediate's number is unchanged by the zero extension. -/
theorem moveWideImmZeroExtends : Obligations.MoveWideImmZeroExtends := by
  refine ⟨fun w h => decode_of_wordsOf (t := .moveWideImm) (by decide) h, fun d imm16 s => ?_⟩
  rw [BitVec.ofNat_toNat]
  exact completeReg_regResult s d _

end Sys2Proof.Machine
end

section
/-! Where the loads and stores stop (R191, R194, R195), and the whole next state of the ones that
complete (43_load_store.md), with the moved values as numbers (R141 to R146). -/

namespace Sys2Proof.Machine

open Sys2Proof

/-! ## The effective address -/

/-- The offset is unsigned and the sum wraps at 2^64 (R140). -/
theorem toNat_effAddr (s : State) (n : RegIdx) (k : BitVec 9) :
    (effAddr s n k).toNat = ((readReg s n).toNat + k.toNat) % 2 ^ 64 := by
  have hk : k.toNat % 2 ^ 64 = k.toNat := Nat.mod_eq_of_lt (by omega)
  rw [effAddr, BitVec.toNat_add, BitVec.toNat_setWidth, hk]

/-! ## The stops -/

theorem accessFault_some_iff {p : Params} {a : Dword} {f : Fault} :
    accessFault p a = some f ↔
      ¬ Aligned a ∧ f = .misaligned a ∨ Aligned a ∧ backed p a = false ∧ f = .unbacked a := by
  by_cases ha : Aligned a
  · cases hb : backed p a with
    | true => simp [(accessFault_none_iff p a).2 ⟨ha, hb⟩, ha]
    | false => simp [accessFault_unbacked ha hb, ha, eq_comm (a := f)]
  · simp [accessFault_misaligned ha, ha, eq_comm (a := f)]

/-- A load or store stops exactly at the fault of its first word or, in the 64-bit forms, of its second
(log entry 6). -/
theorem exec_fault_iff {i : Instr} {s : State} {n : RegIdx} {k : BitVec 9} {f : Fault}
    (hi : dataAddress i = some (n, k)) :
    exec i s = .fault f ↔
      accessFault s.params (effAddr s n k) = some f ∨
        Accessible s.params (effAddr s n k) ∧ accessFault s.params (effAddr s n k + 4#64) = some f ∧
          (i.tag = .storeWord ∨ i.tag = .loadWord) := by
  cases i with
  | loadByte | loadHalf => cases hi; exact loadNarrow_fault_iff.trans (by simp [Instr.tag])
  | storeByte | storeHalf => cases hi; exact storeNarrow_fault_iff.trans (by simp [Instr.tag])
  | loadWord => cases hi; exact loadPair_fault_iff.trans (by simp [Instr.tag])
  | storeWord => cases hi; exact storePair_fault_iff.trans (by simp [Instr.tag])
  | _ => cases hi

/-- A load or store at a misaligned address stops there (R194). -/
theorem exec_misaligned {i : Instr} {s : State} {n : RegIdx} {k : BitVec 9}
    (hi : dataAddress i = some (n, k)) (h : ¬ Aligned (effAddr s n k)) :
    exec i s = .fault (.misaligned (effAddr s n k)) :=
  (exec_fault_iff hi).2 (.inl (accessFault_misaligned h))

/-- Only a load or store stops (R191). -/
theorem exists_dataAddress_of_fault {i : Instr} {s : State} {f : Fault} (h : exec i s = .fault f) :
    ∃ n k, dataAddress i = some (n, k) := by
  cases hi : dataAddress i with
  | none =>
    obtain ⟨t, ht⟩ := exec_next_of_no_dataAddress hi s
    rw [ht] at h
    cases h
  | some nk => exact ⟨nk.1, nk.2, rfl⟩

/-! ## No refusal -/

section
variable {s : State} {t : RegIdx} {a v : Dword} {w : Word} {pick : Word → Dword} {r : Refusal}

theorem ne_refused_of_next {res : Result} (h : ∃ t, res = .next t) : res ≠ .refused r := by
  obtain ⟨t, rfl⟩ := h
  nofun

theorem loadNarrow_ne_refused : loadNarrow s t a pick ≠ .refused r := by
  unfold loadNarrow completeReg
  cases memRead s a <;> simp

theorem loadPair_ne_refused : loadPair s t a ≠ .refused r := by
  unfold loadPair completeReg
  cases memRead s a <;> cases memRead s (a + 4#64) <;> simp

theorem storeNarrow_ne_refused : storeNarrow s a w ≠ .refused r := by
  unfold storeNarrow
  cases memWrite s a w <;> simp

theorem storePair_ne_refused : storePair s a v ≠ .refused r := by
  unfold storePair
  cases memWrite s a (v.extractLsb' 0 32) with
  | error f => simp
  | ok s1 => cases h : memWrite s1 (a + 4#64) (v.extractLsb' 32 32) <;> simp [h]

end

theorem exec_ne_refused (i : Instr) (s : State) (r : Refusal) : exec i s ≠ .refused r := by
  cases i with
  | loadByte | loadHalf => exact loadNarrow_ne_refused
  | loadWord => exact loadPair_ne_refused
  | storeByte | storeHalf => exact storeNarrow_ne_refused
  | storeWord => exact storePair_ne_refused
  | _ => exact ne_refused_of_next (exec_next_of_no_dataAddress rfl s)

/-! ## The next states -/

theorem loadNarrow_regResult {s : State} {a : Dword} (ha : Accessible s.params a) (t : RegIdx)
    (pick : Word → Dword) :
    ∃ u, loadNarrow s t a pick = .next u ∧ RegResult s u t (pick (readWord s.mem a)) s.flags := by
  rw [loadNarrow, memRead_ok ha]
  exact completeReg_regResult s t _

theorem loadPair_regResult {s : State} {a : Dword} (ha : Accessible s.params a)
    (ha4 : Accessible s.params (a + 4#64)) (t : RegIdx) :
    ∃ u, loadPair s t a = .next u ∧
      RegResult s u t (readWord s.mem (a + 4#64) ++ readWord s.mem a) s.flags := by
  rw [loadPair, memRead_ok ha, memRead_ok ha4]
  exact completeReg_regResult s t _

theorem readByte_writeWord_of_not_inWord {m : Memory} {addr : Dword} {v : Word} {a : Nat}
    (h : ¬ InWord addr a) : readByte (writeWord m addr v) a = readByte m a :=
  readByte_writeWord_outside m addr v a fun k hk e => h ⟨k, hk, e⟩

/-- The next state of a narrow store: one word replaced, and nothing else but `pc` (R143, R145). -/
theorem storeNarrow_wroteWord {s : State} {a : Dword} (ha : Accessible s.params a) (v : Word) :
    ∃ u, storeNarrow s a v = .next u ∧ StoreFrame s u ∧ WroteWord s u a v :=
  ⟨advance (setWord s a v), storeNarrow_next_iff.2 ⟨ha, rfl⟩, ⟨fun _ => rfl, rfl, rfl, rfl, rfl, rfl⟩,
    readWord_writeWord_same s.mem a v, fun _ => readByte_writeWord_of_not_inWord⟩

/-- The next state of the 64-bit store: its two words replaced, and nothing else but `pc` (R141). -/
theorem storePair_wroteWords {s : State} {a : Dword} (ha : Accessible s.params a)
    (ha4 : Accessible s.params (a + 4#64)) (v : Dword) :
    ∃ u, storePair s a v = .next u ∧ StoreFrame s u ∧
      readWord u.mem a = v.extractLsb' 0 32 ∧ readWord u.mem (a + 4#64) = v.extractLsb' 32 32 ∧
      ∀ b, ¬ InWord a b → ¬ InWord (a + 4#64) b → readByte u.mem b = readByte s.mem b :=
  ⟨_, storePair_next_iff.2 ⟨ha, ha4, rfl⟩, ⟨fun _ => rfl, rfl, rfl, rfl, rfl, rfl⟩,
    readWord_writeWord_next s.mem a _ _, readWord_writeWord_same _ _ _,
    fun _ hlo hhi => (readByte_writeWord_of_not_inWord hhi).trans (readByte_writeWord_of_not_inWord hlo)⟩

/-! ## The moved values as numbers -/

/-- The low `k` bits, zero-extended, are the number modulo `2^k` (R143 to R146). -/
theorem setWidth_extractLsb'_zero {w : Nat} (v : BitVec w) (k m : Nat) :
    (v.extractLsb' 0 k).setWidth m = BitVec.ofNat m (v.toNat % 2 ^ k) := by
  rw [← BitVec.ofNat_toNat, BitVec.extractLsb'_toNat, Nat.shiftRight_zero]

/-- The word at the higher address counts 2^32 (R142). -/
theorem append_words_eq_ofNat (hi lo : Word) :
    hi ++ lo = BitVec.ofNat 64 (hi.toNat * 2 ^ 32 + lo.toNat) := by
  rw [← toNat_append_eq, BitVec.ofNat_toNat, BitVec.setWidth_eq]

/-! ## The statements -/

/-- Settles O30: the stops are those of the access checks on the first word and, in the 64-bit forms, on
the second, which is aligned with the first. -/
theorem loadsAndStoresStopExactlyAtBadAddresses :
    Obligations.LoadsAndStoresStopExactlyAtBadAddresses := by
  refine ⟨toNat_effAddr, fun i s f h => ?_, fun i s n k hi => ⟨exec_misaligned hi, ?_, ?_⟩,
    exec_ne_refused⟩
  · obtain ⟨n, k, hi⟩ := exists_dataAddress_of_fault h
    refine ⟨n, k, hi, ?_⟩
    obtain hfirst | ⟨ha, hsecond, hwide⟩ := (exec_fault_iff hi).1 h
    · obtain hmis | hout := accessFault_some_iff.1 hfirst
      · exact .inl hmis
      · exact .inr (.inl hout)
    · obtain ⟨hmis, -⟩ | ⟨-, hout, hf⟩ := accessFault_some_iff.1 hsecond
      · exact absurd (aligned_add_four.2 ha.1) hmis
      · exact .inr (.inr ⟨ha, hout, hf, hwide⟩)
  · exact fun hal hout => (exec_fault_iff hi).2 (.inl (accessFault_unbacked hal hout))
  · exact fun ha hout hwide => (exec_fault_iff hi).2
      (.inr ⟨ha, accessFault_unbacked (aligned_add_four.2 ha.1) hout, hwide⟩)

/-- Settles O26: both words are written, the second apart from the first. -/
theorem storeWordWritesTwoWords : Obligations.StoreWordWritesTwoWords :=
  ⟨fun _ h hsel => decode_of_wordsOf (t := .storeWord) (by decide) ⟨h, hsel⟩,
    fun t n imm9 s ha ha4 =>
      ⟨toNat_effAddr s n imm9, rfl, storePair_wroteWords ha ha4 (readReg s t)⟩,
    fun _ _ _ _ => exec_misaligned rfl⟩

/-- Settles O27: the register gets the two words of the state before, the higher one above. -/
theorem loadWordReadsTwoWords : Obligations.LoadWordReadsTwoWords := by
  refine ⟨fun w h hsel => decode_of_wordsOf (t := .loadWord) (by decide) ⟨h, hsel⟩,
    fun t n imm9 s ha ha4 => ⟨toNat_effAddr s n imm9, ?_⟩, fun _ _ _ _ => exec_misaligned rfl⟩
  rw [← append_words_eq_ofNat]
  exact loadPair_regResult ha ha4 t

/-- Settles O28: the written word is the low bits' number, so its upper bits are zero. -/
theorem storeByteAndHalfReplaceTheWholeWord : Obligations.StoreByteAndHalfReplaceTheWholeWord := by
  refine ⟨fun w h hsel => decode_of_wordsOf (t := .storeByte) (by decide) ⟨h, hsel⟩,
    fun w h hsel => decode_of_wordsOf (t := .storeHalf) (by decide) ⟨h, hsel⟩,
    fun t n imm9 s ha => ⟨toNat_effAddr s n imm9, ?_⟩,
    fun _ _ _ _ hmis => ⟨exec_misaligned rfl hmis, exec_misaligned rfl hmis⟩⟩
  rw [← setWidth_extractLsb'_zero, ← setWidth_extractLsb'_zero]
  exact ⟨storeNarrow_wroteWord ha _, storeNarrow_wroteWord ha _⟩

/-- Settles O29: the register gets the low bits of the word as a number. -/
theorem loadByteAndHalfZeroExtend : Obligations.LoadByteAndHalfZeroExtend := by
  refine ⟨fun w h hsel => decode_of_wordsOf (t := .loadByte) (by decide) ⟨h, hsel⟩,
    fun w h hsel => decode_of_wordsOf (t := .loadHalf) (by decide) ⟨h, hsel⟩,
    fun t n imm9 s ha => ⟨toNat_effAddr s n imm9, ?_⟩,
    fun _ _ _ _ hmis => ⟨exec_misaligned rfl hmis, exec_misaligned rfl hmis⟩⟩
  rw [← setWidth_extractLsb'_zero, ← setWidth_extractLsb'_zero]
  exact ⟨loadNarrow_regResult ha t _, loadNarrow_regResult ha t _⟩

end Sys2Proof.Machine
end

section
/-! The control-transfer instructions (44_control_transfer.md): the whole next state of a branch, and what
the six predicates say of the operands after a compare (R166). -/

namespace Sys2Proof.Machine

open Sys2Proof

/-! ## The whole next state of a branch -/

/-- A relative branch decided by the test `taken` of the condition `c` (R160). -/
theorem branchIf_pcResult {taken : Bool} {c : Prop} [Decidable c] (h : taken = true ↔ c) (s : State)
    (off : Dword) :
    ∃ t, branchIf s taken off = .next t ∧ PcResult s t (if c then s.pc + off else s.pc + 4#64) := by
  refine ⟨_, branchIf_eq s taken off, fun _ => rfl, rfl, ?_, fun _ => rfl, rfl, rfl, rfl⟩
  simp only [jump_pc, h]

theorem jump_pcResult (s : State) (target : Dword) : PcResult s (jump s target) target :=
  ⟨fun _ => rfl, rfl, rfl, fun _ => rfl, rfl, rfl, rfl⟩

/-! ## The six predicates (R166) -/

theorem condEq_iff {f : Flags} : condEq f = true ↔ f.z = true := Iff.rfl

theorem condNe_iff {f : Flags} : condNe f = true ↔ f.z = false :=
  iff_of_eq (Bool.not_eq_true' f.z)

theorem condGe_iff {f : Flags} : condGe f = true ↔ f.n = false :=
  iff_of_eq (Bool.not_eq_true' f.n)

theorem condLt_iff {f : Flags} : condLt f = true ↔ f.n = true := Iff.rfl

theorem condGt_iff {f : Flags} : condGt f = true ↔ f.n = false ∧ f.z = false := by
  simp [condGt]

theorem condLe_iff {f : Flags} : condLe f = true ↔ f.n = true ∨ f.z = true :=
  iff_of_eq (Bool.or_eq_true f.n f.z)

/-! ## The flags of a compare, as signed numbers (R85, R166) -/

theorem addWithCarry_not_true_z_iff (x y : Dword) :
    (addWithCarry x (~~~y) true).2.z = true ↔ x = y := by
  rw [addWithCarry_z_iff, addWithCarry_not_true_fst]
  exact sub_eq_zero

theorem addWithCarry_not_true_n_iff (x y : Dword) :
    (addWithCarry x (~~~y) true).2.n = true ↔ (x - y).toInt < 0 := by
  rw [addWithCarry_n, addWithCarry_not_true_fst, ← BitVec.msb_eq_getLsbD_last, BitVec.msb_eq_toInt,
    decide_eq_true_iff]

theorem addWithCarry_not_true_v (x y : Dword) :
    (addWithCarry x (~~~y) true).2.v = x.ssubOverflow y := by
  rw [Bool.eq_iff_iff, addWithCarry_v_iff, addWithCarry_not_true_fst, BitVec.ssubOverflow_eq]
  simp only [BitVec.msb_eq_getLsbD_last, BitVec.getLsbD_not]
  cases x.getLsbD 63 <;> cases y.getLsbD 63 <;> simp

/-- Signed overflow of a subtraction is an exact difference out of range (R84, R85). -/
theorem addWithCarry_not_true_v_iff (x y : Dword) :
    (addWithCarry x (~~~y) true).2.v = true ↔
      2 ^ 63 ≤ x.toInt - y.toInt ∨ x.toInt - y.toInt < -2 ^ 63 := by
  rw [addWithCarry_not_true_v, BitVec.ssubOverflow, Bool.or_eq_true, decide_eq_true_iff,
    decide_eq_true_iff]

theorem addWithCarry_not_true_n_iff_of_v_false {x y : Dword}
    (hv : (addWithCarry x (~~~y) true).2.v = false) :
    (addWithCarry x (~~~y) true).2.n = true ↔ x.toInt < y.toInt := by
  rw [addWithCarry_not_true_v, ← Bool.not_eq_true] at hv
  rw [addWithCarry_not_true_n_iff, BitVec.toInt_sub_of_not_ssubOverflow hv]
  omega

/-- An overflowing difference wraps, so its sign is the opposite of the exact one's (R166). -/
theorem addWithCarry_not_true_n_iff_of_v_true {x y : Dword}
    (hv : (addWithCarry x (~~~y) true).2.v = true) :
    (addWithCarry x (~~~y) true).2.n = true ↔ y.toInt < x.toInt := by
  rw [addWithCarry_not_true_n_iff, BitVec.toInt_sub]
  obtain hbig | hsmall := (addWithCarry_not_true_v_iff x y).1 hv
  · obtain ⟨-, -, hwrap⟩ := BitVec.twoPow_le_toInt_sub_toInt_iff.1 hbig
    omega
  · obtain ⟨-, -, hwrap⟩ := BitVec.toInt_sub_toInt_lt_twoPow_iff.1 hsmall
    omega

/-! ## The statements -/

/-- Settles O37: the condition field selects the tag, and each predicate decides one relative branch. -/
theorem conditionalBranchesTestNAndZ : Obligations.ConditionalBranchesTestNAndZ := by
  refine ⟨fun w h =>
    ⟨fun hc => decode_of_wordsOf (t := .branchCondEq) (by decide) ⟨h, hc⟩,
    fun hc => decode_of_wordsOf (t := .branchCondNe) (by decide) ⟨h, hc⟩,
    fun hc => decode_of_wordsOf (t := .branchCondGt) (by decide) ⟨h, hc⟩,
    fun hc => decode_of_wordsOf (t := .branchCondLt) (by decide) ⟨h, hc⟩,
    fun hc => decode_of_wordsOf (t := .branchCondGe) (by decide) ⟨h, hc⟩,
    fun hc => decode_of_wordsOf (t := .branchCondLe) (by decide) ⟨h, hc⟩⟩, ?_⟩
  rintro imm19 s target rfl
  exact ⟨branchIf_pcResult condEq_iff s _, branchIf_pcResult condNe_iff s _,
    branchIf_pcResult condGt_iff s _, branchIf_pcResult condLt_iff s _,
    branchIf_pcResult condGe_iff s _, branchIf_pcResult condLe_iff s _⟩

/-- Settles O38: without overflow N is the sign of the exact difference, with it the opposite sign. -/
theorem predicatesAfterACompare : Obligations.PredicatesAfterACompare := by
  intro x y
  have hz := addWithCarry_not_true_z_iff x y
  rw [condEq_iff, condNe_iff, condGe_iff, condLt_iff, condGt_iff, condLe_iff]
  refine ⟨hz, by rw [← Bool.not_eq_true, hz], fun hv => ?_, fun hv => ?_⟩
  · rw [← Bool.not_eq_true, ← Bool.not_eq_true, addWithCarry_not_true_n_iff_of_v_false hv, hz,
      ← BitVec.toInt_inj]
    omega
  · have hne : x.toInt ≠ y.toInt := by
      have := (addWithCarry_not_true_v_iff x y).1 hv
      omega
    rw [← Bool.not_eq_true, addWithCarry_not_true_n_iff_of_v_true hv]
    omega

/-- Settles O35: the branch is always taken. -/
theorem branchUncondAddsItsOffset : Obligations.BranchUncondAddsItsOffset :=
  ⟨fun _ h => decode_of_wordsOf (t := .branchUncond) (by decide) h,
    fun imm26 s => ⟨_, rfl, jump_pcResult s _⟩⟩

/-- Settles O36: the target goes to `pc` unmasked, so the next step's fetch finds it misaligned. -/
theorem branchRegJumpsToTheRegister : Obligations.BranchRegJumpsToTheRegister :=
  ⟨fun _ h => decode_of_wordsOf (t := .branchReg) (by decide) h,
    fun n s => ⟨_, rfl, jump_pcResult s _, fun hmis hdue =>
      step_of_fetch_fault (s := jump s (readReg s n)) hdue (accessFault_misaligned hmis)⟩⟩

/-- Settles O39: the register is 0 exactly when its number is. -/
theorem compareAndBranchTestsTheWholeRegister :
    Obligations.CompareAndBranchTestsTheWholeRegister := by
  refine ⟨fun w h => decode_of_wordsOf (t := .cmpBranchZero) (by decide) h,
    fun w h => decode_of_wordsOf (t := .cmpBranchNonzero) (by decide) h, ?_⟩
  rintro r imm19 s target rfl
  have hzero : (readReg s r).toNat = 0 ↔ readReg s r = 0#64 := BitVec.toNat_inj (y := 0#64)
  exact ⟨branchIf_pcResult (beq_iff_eq.trans hzero.symm) s _,
    branchIf_pcResult (bne_iff_ne.trans hzero.symm.not) s _⟩

end Sys2Proof.Machine
end

section
/-! `HALT` (45_system.md): the words of its stage, and the completion that clears `run` (R180). -/

namespace Sys2Proof

/-- A word of the first stage's block whose low field is not 0 is taken by no stage (R58, R180). -/
theorem decodeTag_invalid_of_halt_block {w : Word} (h : slice w 21 11 = 0x6A2#11)
    (hd : fieldD w ≠ 0#5) : decodeTag w = .invalid :=
  (decodeTag_eq_invalid_iff_of_D4 (primary_of_halt h)).2 fun e => hd e.2

end Sys2Proof

namespace Sys2Proof.Machine

open Sys2Proof

/-- A completion that clears `run` is followed by no step (R28). -/
theorem step_advance_clearRun (s : State) : step (advance (clearRun s)) = .fault .halted :=
  step_of_stepFault (stepFault_halted rfl)

/-- Settles O42: `w[4:0]` decides between `HALT` and `INVALID`, and the completion clears `run`, which
is the step's first check. -/
theorem haltClearsRun : Obligations.HaltClearsRun :=
  ⟨fun _ h hd => decode_of_wordsOf (t := .halt) (by decide) ⟨h, hd⟩,
    fun _ h hd => decode_of_invalid (decodeTag_invalid_of_halt_block h hd),
    fun s => ⟨advance (clearRun s), rfl, rfl, rfl, fun _ => rfl, rfl, fun _ => rfl, rfl, rfl,
      step_advance_clearRun s⟩⟩

end Sys2Proof.Machine
end

section
/-! The reset input (70_reset_and_hazards.md): a clock edge with `rst` asserted as one equation, the
values of R210, and what R211 says of the halted state and of the core's state before the reset. -/

namespace Sys2Proof

/-- `RESET_PC` is the multiple of 4 that its word index names (R6, U2). -/
theorem toNat_resetPc (p : Params) : p.resetPc.toNat = 4 * p.resetPcWord.toNat :=
  (toNat_append_eq p.resetPcWord 0#2).trans (Nat.mul_comm _ 4)

end Sys2Proof

namespace Sys2Proof.Machine

open Sys2Proof

theorem clockEdge_rst (s : State) : clockEdge true s = .next (State.resetWith s.params s.mem) := rfl

/-- A clock edge with `rst` asserted depends on the memory and the parameters alone (R211). -/
theorem clockEdge_rst_congr {s s' : State} (hmem : s.mem = s'.mem) (hparams : s.params = s'.params) :
    clockEdge true s = clockEdge true s' := by
  rw [clockEdge_rst, clockEdge_rst, hmem, hparams]

theorem clockEdge_rst_run {s t : State} (h : clockEdge true s = .next t) : t.run = true :=
  Host.Outcome.next.inj h ▸ rfl

/-- A halted core takes no clock edge without `rst` (R28). -/
theorem clockEdge_halted {rst : Bool} {s t : State} (h : clockEdge rst s = .next t)
    (hrun : s.run = false) : rst = true := by
  cases rst with
  | true => rfl
  | false => cases (step_of_stepFault (stepFault_halted hrun)).symm.trans h

/-- No completion sets `run`: `HALT` clears it, every other one keeps it (R27). -/
theorem Completes.run_eq_false {i : Instr} {s t : State} (h : Completes i s t)
    (hrun : s.run = false) : t.run = false := by
  cases h with
  | clearRun => rfl
  | writeReg | writeRegFlags | writeFlags | storeWord | storeTwoWords | branch | jumpReg => exact hrun

/-- Settles O50: without `rst` a halted state's step stops in its first check, no completion sets `run`,
and the state after a reset is a function of the memory and the parameters. -/
theorem resetIsTheOnlyWayOutOfTheHaltedState :
    Obligations.ResetIsTheOnlyWayOutOfTheHaltedState := by
  refine ⟨fun _ _ _ => clockEdge_halted, fun _ _ _ hexec => (exec_completes hexec).run_eq_false, ?_⟩
  intro s s' t t' hmem hparams ht ht'
  obtain rfl : t = t' :=
    Host.Outcome.next.inj (ht.symm.trans ((clockEdge_rst_congr hmem hparams).trans ht'))
  exact ⟨fun _ => rfl, rfl, rfl, clockEdge_rst_run ht, clockEdge_rst_run ht'⟩

/-- Settles O49: the values are `State.resetWith`'s, which a clock edge with `rst` applies to the
state's own parameters and memory; no word is fetched while `rst` is asserted. -/
theorem resetStateOfTheSpec : Obligations.ResetStateOfTheSpec := fun p m s =>
  ⟨readReg_resetWith p m, rfl, toNat_resetPc p, rfl, rfl,
    ⟨State.resetWith s.params s.mem, clockEdge_rst s, readReg_resetWith s.params s.mem, rfl,
      toNat_resetPc s.params, rfl, rfl⟩,
    rfl⟩

end Sys2Proof.Machine
end

section
/-! Memory over whole steps (R32, R33): a clock edge keeps the canonical form, a canonical memory is the
function of addresses it reads as, and only stores change what is read (R141 to R146). -/

namespace Sys2Proof.Machine

open Sys2Proof

/-! ## The canonical form is kept -/

/-- A completion changes memory only by word writes, which keep the canonical form. -/
theorem Completes.inv {i : Instr} {s t : State} (h : Completes i s t) (hs : s.Inv) : t.Inv := by
  cases h with
  | storeWord a v => exact writeWord_wf hs a v
  | storeTwoWords a b v w => exact writeWord_wf (writeWord_wf hs a v) b w
  | writeReg | writeRegFlags | writeFlags | clearRun | branch | jumpReg => exact hs

theorem step_inv {s t : State} (hs : s.Inv) (h : step s = .next t) : t.Inv := by
  obtain ⟨-, -, ⟨i, -, hexec⟩ | ⟨e, -, rfl⟩⟩ := step_next_cases h
  · exact (exec_completes hexec).inv hs
  · exact hs

/-- Settles O53: a step writes memory by whole words only, and reset keeps it. -/
theorem everyStepKeepsMemoryCanonical : Obligations.EveryStepKeepsMemoryCanonical := by
  intro rst s t hs h
  cases rst with
  | true => exact Host.Outcome.next.inj h ▸ hs
  | false => exact step_inv hs h

/-- Settles O52: nothing is listed. -/
theorem resetMemoryIsCanonical : Obligations.ResetMemoryIsCanonical :=
  ⟨.nil, List.forall_mem_nil _⟩

/-! ## A canonical memory is what it reads as -/

theorem lt_of_mem_wf {m : Memory} (h : m.wf) {e : Host.Cell} (he : e ∈ m) : e.1 < 2 ^ 64 :=
  (h.2 e he).2

theorem readByte_of_forall_lt {m : Memory} {a : Nat} (h : ∀ e ∈ m, a < e.1) :
    readByte m a = Config.unlistedByte := by
  induction m with
  | nil => rfl
  | cons e m ih =>
    obtain ⟨ha, hm⟩ := List.forall_mem_cons.1 h
    exact (if_neg ha.ne').trans (ih hm)

/-- In a canonical memory, the entries are the addresses whose byte is not the unlisted one. -/
theorem mem_iff_readByte {m : Memory} (h : m.wf) (a : Nat) (b : Byte) :
    (a, b) ∈ m ↔ readByte m a = b ∧ b ≠ Config.unlistedByte := by
  induction m with
  | nil => simp +contextual [readByte, eq_comm]
  | cons e m ih =>
    obtain ⟨k, v⟩ := e
    obtain ⟨hsorted, hval⟩ := h
    obtain ⟨hk, hsorted⟩ := List.pairwise_cons.1 hsorted
    obtain ⟨⟨hv, -⟩, hval⟩ := List.forall_mem_cons.1 hval
    rw [List.mem_cons, ih ⟨hsorted, hval⟩]
    by_cases ha : k = a
    · subst ha
      rw [readByte_of_forall_lt hk]
      grind [readByte]
    · simp [readByte, ha, Ne.symm ha]

/-- Settles O54: both lists are sorted by address and have the same entries. -/
theorem canonicalMemoriesReadingAlikeAreEqual :
    Obligations.CanonicalMemoriesReadingAlikeAreEqual := by
  intro m m' h h' hread
  have hmem : ∀ e, e ∈ m ↔ e ∈ m' := by
    rintro ⟨a, b⟩
    by_cases ha : a < 2 ^ 64
    · rw [mem_iff_readByte h, mem_iff_readByte h', hread a ha]
    · exact iff_of_false (fun he => ha (lt_of_mem_wf h he)) fun he => ha (lt_of_mem_wf h' he)
  have : Std.Irrefl fun e f : Host.Cell => e.1 < f.1 := ⟨fun e => lt_irrefl e.1⟩
  exact h.1.eq_of_mem_iff h'.1 hmem

/-! ## Stores alone change memory -/

theorem applyTransactions_of_not_store {i : Instr} (h : i.tag ∉ [.storeWord, .storeByte, .storeHalf])
    (s : State) (m : Memory) : applyTransactions (dataTransactions i s) m = m := by
  cases i with
  | storeWord | storeByte | storeHalf => exact absurd (by simp [Instr.tag]) h
  | _ => rfl

/-- The written words of a load or store are at its effective address and, for `STORE_WORD`, at the next
one, so every byte outside them reads as before. -/
theorem readByte_applyTransactions {i : Instr} {s : State} {n : RegIdx} {k : BitVec 9} {a : Nat}
    (hi : dataAddress i = some (n, k)) (ha : ¬ InWord (effAddr s n k) a)
    (ha4 : ¬ (i.tag = .storeWord ∧ InWord (effAddr s n k + 4#64) a)) (m : Memory) :
    readByte (applyTransactions (dataTransactions i s) m) a = readByte m a := by
  cases i with
  | storeWord =>
    cases hi
    exact (readByte_writeWord_of_not_inWord fun h => ha4 ⟨rfl, h⟩).trans
      (readByte_writeWord_of_not_inWord ha)
  | storeByte | storeHalf => cases hi; exact readByte_writeWord_of_not_inWord ha
  | loadWord | loadByte | loadHalf => rfl
  | _ => cases hi

/-- Settles O58: memory changes by the listed writes alone. -/
theorem onlyStoresChangeMemory : Obligations.OnlyStoresChangeMemory := by
  intro i s t hexec
  have hmem := (exec_accountedFor hexec).mem_eq
  refine ⟨fun hi => ?_, fun n k hi a ha ha4 => ?_⟩
  · rw [hmem, applyTransactions_of_not_store hi]
  · rw [hmem, readByte_applyTransactions hi ha ha4]

end Sys2Proof.Machine
end

section
/-! What an access sees of a store before it: a load of another width (R39), and the fetch of the next
step (R44, R148). -/

namespace Sys2Proof.Machine

open Sys2Proof

/-! ## After a byte or halfword store -/

section
variable {s s1 : State} {a b : Dword} {v : Word} (h : storeNarrow s a v = .next s1)
include h

/-- A store leaves the registers, so it leaves the address of every base and offset. -/
theorem effAddr_of_storeNarrow (n : RegIdx) (k : BitVec 9) : effAddr s1 n k = effAddr s n k := by
  obtain ⟨-, rfl⟩ := storeNarrow_next_iff.1 h
  rfl

/-- A narrow store leaves the word after it, so a 64-bit load has that word above the stored one (R39). -/
theorem loadPair_of_storeNarrow (hb : b = a) (ha4 : Accessible s.params (a + 4#64)) (u : RegIdx) :
    loadPair s1 u b = .next (advance (setReg s1 u (readWord s.mem (a + 4#64) ++ v))) := by
  subst hb
  obtain ⟨ha, rfl⟩ := storeNarrow_next_iff.1 h
  exact loadPair_next_iff.2
    ⟨ha, ha4, by simp [readWord_writeWord_apart _ v (apart_symm (apart_next b))]⟩

/-- The word of a narrow store at `pc + 4` is what the next step fetches (R44). -/
theorem fetch_of_storeNarrow (hpc : a = s.pc + 4#64) : fetch s1 = .ok v := by
  subst hpc
  obtain ⟨ha, rfl⟩ := storeNarrow_next_iff.1 h
  exact memRead_ok_iff.2 ⟨ha, by simp⟩

end

/-! ## After a 64-bit store -/

section
variable {s s1 : State} {a b v : Dword} (h : storePair s a v = .next s1)
include h

theorem effAddr_of_storePair (n : RegIdx) (k : BitVec 9) : effAddr s1 n k = effAddr s n k := by
  obtain ⟨-, -, rfl⟩ := storePair_next_iff.1 h
  rfl

/-- The low word of a 64-bit store is at its address (R37). -/
theorem memRead_of_storePair (hb : b = a) : memRead s1 b = .ok (v.extractLsb' 0 32) := by
  subst hb
  obtain ⟨ha, -, rfl⟩ := storePair_next_iff.1 h
  exact memRead_ok_iff.2 ⟨ha, by simp⟩

/-- The high word of a 64-bit store is four bytes after its address (R37). -/
theorem memRead_next_of_storePair (hb : b = a + 4#64) :
    memRead s1 b = .ok (v.extractLsb' 32 32) := by
  subst hb
  obtain ⟨-, ha4, rfl⟩ := storePair_next_iff.1 h
  exact memRead_ok_iff.2 ⟨ha4, by simp⟩

theorem pc_of_storePair : s1.pc = s.pc + 4#64 := by
  obtain ⟨-, -, rfl⟩ := storePair_next_iff.1 h
  rfl

end

theorem loadNarrow_of_memRead {s : State} {b : Dword} {w : Word} (h : memRead s b = .ok w)
    (u : RegIdx) (pick : Word → Dword) :
    loadNarrow s u b pick = .next (advance (setReg s u (pick w))) := by
  rw [loadNarrow, h]
  rfl

/-- The low bits of a field are the bits of the word at the field's place. -/
theorem extractLsb'_extractLsb'_zero (v : Dword) (lo : Nat) {len width : Nat} (h : len ≤ width) :
    (v.extractLsb' lo width).extractLsb' 0 len = v.extractLsb' lo len := by
  ext i hi
  have : i < width := by omega
  simp [this]

/-! ## The statements -/

/-- Settles O32: what each load picks from the words that the store wrote or left. -/
theorem mixedWidthAccesses : Obligations.MixedWidthAccesses := by
  refine ⟨fun t u n k s s1 ha4 => ?narrowStores, fun t u n n' k k' s s1 h => ?wideStore⟩
  case narrowStores =>
    rw [← setWidth_extractLsb'_zero, ← setWidth_extractLsb'_zero]
    constructor <;> intro h
    all_goals
      exact ⟨_, loadPair_of_storeNarrow h (effAddr_of_storeNarrow h n k) ha4 u, by simp⟩
  case wideStore =>
    have haddr := effAddr_of_storePair h n' k'
    refine ⟨fun hlow => ?_, fun hhigh => ?_⟩
    · have hread := memRead_of_storePair h (haddr.trans hlow)
      exact ⟨⟨_, loadNarrow_of_memRead hread u _, by simp⟩,
        ⟨_, loadNarrow_of_memRead hread u _, by simp⟩⟩
    · have hread := memRead_next_of_storePair h (haddr.trans hhigh)
      exact ⟨⟨_, loadNarrow_of_memRead hread u _, by simp [extractLsb'_extractLsb'_zero]⟩,
        ⟨_, loadNarrow_of_memRead hread u _, by simp [extractLsb'_extractLsb'_zero]⟩⟩

/-- Settles O33: a store completes at `pc + 4`, where the fetch finds the word written there. -/
theorem storedWordIsFetchedByTheNextStep : Obligations.StoredWordIsFetchedByTheNextStep := by
  refine fun t n k s s1 => ⟨fun haddr => ?_, fun haddr h => ?_⟩
  · rw [← setWidth_extractLsb'_zero, ← setWidth_extractLsb'_zero]
    exact ⟨fun h => memRead_of_storePair h ((pc_of_storePair h).trans haddr.symm),
      fun h => fetch_of_storeNarrow h haddr, fun h => fetch_of_storeNarrow h haddr⟩
  · refine memRead_next_of_storePair h ?_
    rw [pc_of_storePair h, haddr]

end Sys2Proof.Machine
end

section
/-! The adder's flags as comparisons of numbers (R83 to R85), a branch offset as four times its field
(R56), and the left shift as a product (R128). -/

namespace Sys2Proof.Machine

open Sys2Proof

/-! ## The carry (R83) -/

theorem getLsbD_63_eq_decide (x : Dword) : x.getLsbD 63 = decide (2 ^ 63 ≤ x.toNat) := by
  rw [← x.msb_eq_decide, BitVec.msb_eq_getLsbD_last]

theorem addWithCarry_comm (x y : Dword) (cin : Bool) :
    addWithCarry x y cin = addWithCarry y x cin := by
  unfold addWithCarry
  rw [Nat.add_comm x.toNat]
  cases x.msb <;> cases y.msb <;> rfl

/-- The carry from the sign bits of the operands and of the result. -/
theorem addWithCarry_c_eq_sign_bits (x y : Dword) (cin : Bool) :
    (addWithCarry x y cin).2.c =
      (x.getLsbD 63 && y.getLsbD 63 ||
        (x.getLsbD 63 || y.getLsbD 63) && !(addWithCarry x y cin).1.getLsbD 63) := by
  have := x.isLt
  have := y.isLt
  have := cin.toNat_le
  rw [Bool.eq_iff_iff, addWithCarry_c_iff]
  simp only [getLsbD_63_eq_decide, toNat_addWithCarry, Bool.or_eq_true, Bool.and_eq_true,
    Bool.not_eq_true', decide_eq_true_iff, decide_eq_false_iff_not]
  omega

/-- The test `result < x` misses the carry exactly when the other operand and the carry in wrap together. -/
theorem addWithCarry_c_ne_lt_iff (x y : Dword) (cin : Bool) :
    (addWithCarry x y cin).2.c ≠ decide ((addWithCarry x y cin).1 < x) ↔
      y.toNat + cin.toNat = 2 ^ 64 := by
  have := x.isLt
  have := y.isLt
  have := cin.toNat_le
  rw [Ne, Bool.eq_iff_iff, addWithCarry_c_iff, decide_eq_true_iff, BitVec.lt_def, toNat_addWithCarry]
  omega

/-- Settles O8: the two tests differ only by the order of the operands. -/
theorem carryIsTheTrueSixtyFifthBit : Obligations.CarryIsTheTrueSixtyFifthBit := fun x y cin =>
  ⟨addWithCarry_c_iff x y cin, addWithCarry_c_eq_sign_bits x y cin, addWithCarry_c_ne_lt_iff x y cin,
    addWithCarry_comm y x cin ▸ addWithCarry_c_ne_lt_iff y x cin⟩

/-! ## The overflow (R84) -/

theorem toInt_eq_getLsbD_63 (x : Dword) :
    x.toInt = if x.getLsbD 63 = true then (x.toNat : Int) - 2 ^ 64 else (x.toNat : Int) := by
  rw [BitVec.toInt_eq_msb_cond, BitVec.msb_eq_getLsbD_last]
  rfl

/-- Signed overflow is an exact signed sum out of range. -/
theorem addWithCarry_v_iff_toInt (x y : Dword) (cin : Bool) :
    (addWithCarry x y cin).2.v = true ↔
      ¬ (-2 ^ 63 ≤ x.toInt + y.toInt + (cin.toNat : Int) ∧
        x.toInt + y.toInt + (cin.toNat : Int) ≤ 2 ^ 63 - 1) := by
  have := x.isLt
  have := y.isLt
  have := cin.toNat_le
  rw [addWithCarry_v_iff]
  simp only [toInt_eq_getLsbD_63, getLsbD_63_eq_decide, toNat_addWithCarry, decide_eq_true_iff,
    decide_eq_decide, Ne]
  split <;> split <;> omega

theorem addWithCarry_v_eq_xor (x y : Dword) (cin : Bool) :
    (addWithCarry x y cin).2.v = (~~~(x ^^^ y) &&& (x ^^^ (addWithCarry x y cin).1)).getLsbD 63 := by
  rw [Bool.eq_iff_iff, addWithCarry_v_iff]
  simp only [BitVec.getLsbD_and, BitVec.getLsbD_not, BitVec.getLsbD_xor]
  cases x.getLsbD 63 <;> cases y.getLsbD 63 <;> simp

/-- Settles O9: the signs of operands and result, as an exact sum and as a formula on bits. -/
theorem overflowIsASignedSumOutOfRange : Obligations.OverflowIsASignedSumOutOfRange :=
  fun x y cin => ⟨addWithCarry_v_iff_toInt x y cin, addWithCarry_v_eq_xor x y cin⟩

/-- Settles O10: subtraction through the adder, flag by flag. -/
theorem subtractionFlagsCompareTheOperands : Obligations.SubtractionFlagsCompareTheOperands := by
  intro x y
  refine ⟨addWithCarry_not_true_fst x y, addWithCarry_not_true_c_iff x y,
    addWithCarry_not_true_z_iff x y, ?_, ?_⟩
  · rw [addWithCarry_n, addWithCarry_not_true_fst]
  · rw [addWithCarry_not_true_v_iff]
    omega

/-! ## Branch offsets (R56) -/

/-- The field above two zero bits is four times the field. -/
theorem setWidth_shiftLeft_two {len : Nat} (hlen : len ≤ 64) (f : BitVec len) :
    f.setWidth 64 <<< 2 = BitVec.ofNat 64 (4 * f.toNat) := by
  apply BitVec.eq_of_toNat_eq
  rw [BitVec.toNat_shiftLeft, BitVec.toNat_setWidth_of_le hlen, Nat.shiftLeft_eq,
    BitVec.toNat_ofNat, Nat.mul_comm]

/-- Settles O12: the field's own range, times four. -/
theorem branchOffsetsAreFourTimesTheSignedField :
    Obligations.BranchOffsetsAreFourTimesTheSignedField := by
  refine ⟨fun imm26 => ⟨toInt_offset26 imm26, ?low26, ?high26, ?sext28⟩,
    fun imm19 => ⟨toInt_offset19 imm19, ?low19, ?high19, ?sext21⟩⟩
  case sext28 => rw [offset26, setWidth_shiftLeft_two (by decide)]
  case sext21 => rw [offset19, setWidth_shiftLeft_two (by decide)]
  case low26 | high26 =>
    have := imm26.le_toInt
    have := imm26.toInt_lt
    rw [toInt_offset26]
    omega
  case low19 | high19 =>
    have := imm19.le_toInt
    have := imm19.toInt_lt
    rw [toInt_offset19]
    omega

/-! ## The left shift as a number (R128) -/

/-- A left shift is a product modulo 2^64. -/
theorem shiftLeft_eq_ofNat (x : Dword) (k : Nat) : x <<< k = BitVec.ofNat 64 (x.toNat * 2 ^ k) := by
  apply BitVec.eq_of_toNat_eq
  rw [BitVec.toNat_shiftLeft, Nat.shiftLeft_eq, BitVec.toNat_ofNat]

/-- Settles O24: `imms` selects the tag; the shift by 64 of `immr = 0` leaves no bit (log entry 8). -/
theorem shiftLeftMultipliesByAPowerOfTwo : Obligations.ShiftLeftMultipliesByAPowerOfTwo := by
  refine ⟨fun w h himms => decode_of_wordsOf (t := .shiftLeft) (by decide) ⟨h, himms⟩,
    fun d n immr s => ?_⟩
  rw [← shiftLeft_eq_ofNat]
  obtain ⟨t, hexec, hres⟩ := completeReg_regResult s d (readReg s n <<< leftAmount immr)
  refine ⟨t, hexec, hres, fun hzero => ?_⟩
  rw [hres.readReg_eq, hzero]
  exact BitVec.shiftLeft_eq_zero (Nat.le_refl 64)

end Sys2Proof.Machine
end

section
/-! The don't-care bits (R66): two words that agree under a mask have the same fields within the mask, and
a word decodes by the fields of its tag alone. Also the words of the rules' examples. -/

namespace Sys2Proof

/-- Words that agree under a mask have the same field, where the mask covers it. -/
theorem slice_eq_of_and_eq {w w' m : Word} (h : w &&& m = w' &&& m) (lo len : Nat)
    (hlen : lo + len ≤ 32) (hm : m ||| fieldMask lo len = m) : slice w' lo len = slice w lo len := by
  rw [← hm, and_or_mask_eq_iff] at h
  exact ((and_fieldMask_eq_iff hlen w w').1 h.2).symm

/-- Words of one executable tag with the same operands decode alike. -/
theorem decode_congr {w w' : Word} {t : Tag} (ht : t ≠ .invalid) (hw : WordsOf w t)
    (hw' : WordsOf w' t) (hf : fieldsOf t w' = fieldsOf t w) : decode w' = decode w := by
  rw [decode_of_wordsOf ht hw, decode_of_wordsOf ht hw', hf]

/-- The fields that the decoder tests and the execution reads lie within the tag's care mask. -/
theorem wordsOf_and_fieldsOf_of_careMask {w w' : Word} {t : Tag} (ht : t ≠ .invalid)
    (hw : WordsOf w t) (h : w &&& careMask t = w' &&& careMask t) :
    WordsOf w' t ∧ fieldsOf t w' = fieldsOf t w := by
  have field := slice_eq_of_and_eq h
  cases t
  case invalid => exact absurd rfl ht
  all_goals
    simpa (disch := decide) only [WordsOf, fieldsOf, primary, fieldD, fieldN, fieldM, fieldSh,
      fieldImm12, fieldImm16, fieldImm9, fieldImm26, fieldImm19, fieldImmr, fieldImms, fieldCond,
      field, and_true] using hw

/-- Two words with primary byte 0xD3 that agree in `d`, `n`, `immr` and the test of `imms` decode alike:
they have the same tag, and `imms` is no operand. -/
theorem decode_congr_of_shift {w w' : Word} (hp : primary w = 0xD3#8)
    (h : w &&& 0xFF3F03FF#32 = w' &&& 0xFF3F03FF#32)
    (himms : fieldImms w = 0x3F#6 ↔ fieldImms w' = 0x3F#6) : decode w' = decode w := by
  have field := slice_eq_of_and_eq h
  have hp' : primary w' = 0xD3#8 := (field 24 8 (by decide) (by decide)).trans hp
  have hd : fieldD w' = fieldD w := field 0 5 (by decide) (by decide)
  have hn : fieldN w' = fieldN w := field 5 5 (by decide) (by decide)
  have himmr : fieldImmr w' = fieldImmr w := field 16 6 (by decide) (by decide)
  by_cases hr : fieldImms w = 0x3F#6
  · exact decode_congr (t := .shiftRight) (by decide) ⟨hp, hr⟩ ⟨hp', himms.1 hr⟩
      (by rw [fieldsOf, fieldsOf, hd, hn, himmr])
  · exact decode_congr (t := .shiftLeft) (by decide) ⟨hp, hr⟩ ⟨hp', hr ∘ himms.2⟩
      (by rw [fieldsOf, fieldsOf, hd, hn, himmr])

/-- Settles O4: agreement under the care mask keeps the tag's test and its operands. -/
theorem dontCareBitsAreIgnored : Obligations.DontCareBitsAreIgnored := by
  refine ⟨fun w w' ht h => ?_, fun w w' => decode_congr_of_shift⟩
  obtain ⟨hw', hf⟩ := wordsOf_and_fieldsOf_of_careMask ht (wordsOf_decodeTag w) h
  exact decode_congr ht (wordsOf_decodeTag w) hw' hf

/-- Settles O6: the decoder evaluated on each of the twelve words. -/
theorem exampleWordsOfTheSpecDecode : Obligations.ExampleWordsOfTheSpecDecode := by
  refine ⟨?_, ?_, ?_, ?_, ?_, ?_, ?_, ?_, ?_, ?_, ?_, ?_⟩ <;> decide

end Sys2Proof
end

section
/-! The `INVALID` event over steps (R182, R183): the fault mark after a step, and the `invalid` output of
the step. Also the model's own values at reset. -/

namespace Sys2Proof.Machine

open Sys2Proof

/-! ## The output of a step that is due -/

/-- A step that is due at an accessible `pc` raises `invalid` exactly on a word tagged `INVALID` (R216). -/
theorem invalidOut_eq {s : State} (hf : stepFault s = none) (ha : Accessible s.params s.pc) :
    invalidOut false s = (decodeTag (readWord s.mem s.pc) == .invalid) := by
  have hr : fetch s = .ok (readWord s.mem s.pc) := memRead_ok ha
  simp [invalidOut, tagOut, fetchedWord, hf, hr]

theorem decodeTag_ne_invalid {w : Word} {i : Instr} (h : decode w = .ok i) :
    decodeTag w ≠ .invalid := by
  intro hinv
  rw [decode_of_invalid hinv] at h
  cases h

theorem decodeTag_eq_invalid {w : Word} {e : DecodeError} (h : decode w = .error e) :
    decodeTag w = .invalid :=
  fieldsOf_error_iff.1 ⟨e, h⟩

/-- After an `INVALID` word, the policy `stop` ends the run (R182, log entry 4). -/
theorem stepFault_stoppedAfterInvalid {s : State} (hrun : s.run = true)
    (hseen : s.invalidSeen = true) (hstop : s.params.invalidPolicy = .stop) :
    stepFault s = some .stoppedAfterInvalid := by
  simp [stepFault, hrun, hseen, hstop]

/-! ## The mark and the parameters -/

theorem Completes.invalidSeen_eq {i : Instr} {s t : State} (h : Completes i s t) :
    t.invalidSeen = s.invalidSeen := by
  cases h <;> rfl

theorem Completes.params_eq {i : Instr} {s t : State} (h : Completes i s t) :
    t.params = s.params := by
  cases h <;> rfl

/-- Settles O44: no completion touches the mark or the parameters, and the `INVALID` event sets the mark. -/
theorem markRecordsTheInvalidSignal : Obligations.MarkRecordsTheInvalidSignal := by
  intro s t h
  obtain ⟨hf, ha, ⟨i, hdec, hexec⟩ | ⟨e, hdec, rfl⟩⟩ := step_next_cases h
  · have hc := exec_completes hexec
    simp [invalidOut_eq hf ha, decodeTag_ne_invalid hdec, hc.invalidSeen_eq, hc.params_eq]
  · simp [invalidOut_eq hf ha, decodeTag_eq_invalid hdec]

/-- Settles O43: the step is the `INVALID` event, after which the first check looks at the policy. -/
theorem invalidWordIsANoOpWithASignal : Obligations.InvalidWordIsANoOpWithASignal := by
  refine ⟨fun s t h hseen => ?_, fun s hdue ha htag => ⟨?_, advance (markInvalid s), ?_⟩⟩
  · rw [(markRecordsTheInvalidSignal s t h).1, hseen, Bool.true_or]
  · simp [invalidOut_eq ((stepFault_none_iff s).2 hdue) ha, htag]
  · have hrun : s.run = true := hdue.1
    refine ⟨step_of_decode_error hdue ha (decode_of_invalid htag), rfl, fun _ => rfl, rfl, rfl,
      fun _ => rfl, rfl, rfl, fun hadv => ?_, fun hstop => ?_⟩
    · exact ⟨hrun, by simp [hadv]⟩
    · exact step_of_stepFault (stepFault_stoppedAfterInvalid hrun rfl hstop)

/-- Settles O51: the default domain backs every address, and nothing is listed (log entries 1 to 5). -/
theorem resetValuesTheModelChose : Obligations.ResetValuesTheModelChose :=
  ⟨by decide, fun _ => rfl, fun a _ => backed_default a, rfl, rfl⟩

end Sys2Proof.Machine
end

section
/-! The flags an instruction reads and writes (R24, R25), said once for all of `exec`: what it answers when
the flags before it are replaced by others that agree on the ones it reads. -/

namespace Sys2Proof.Machine

open Sys2Proof

/-- The two settings of the flags agree on those that the instruction reads (R25). -/
structure SameReads (i : Instr) (f g : Flags) : Prop where
  n : i.tag ∈ [.branchCondGe, .branchCondLt, .branchCondGt, .branchCondLe] → f.n = g.n
  z : i.tag ∈ [.branchCondEq, .branchCondNe, .branchCondGt, .branchCondLe] → f.z = g.z
  c : i.tag = .addCarryFlags → f.c = g.c

/-- The flags after an instruction (R24): those of `new` that it writes, those of `old` that it leaves. -/
def flagsAfter (i : Instr) (old new : Flags) : Flags :=
  if writesNZCV i then new
  else if i.tag = .andFlags then { new with c := old.c, v := old.v }
  else old

/-! ## The shared operations under other flags -/

section
variable (s : State) (f : Flags) (d : RegIdx) (a v off : Dword) (w : Word) (pick : Word → Dword)
  (taken : Bool)

theorem loadNarrow_setFlags :
    loadNarrow (setFlags s f) d a pick = mapNext (setFlags · f) (loadNarrow s d a pick) := by
  simp only [loadNarrow, memRead, setFlags_params, setFlags_mem]
  cases accessFault s.params a <;> rfl

theorem loadPair_setFlags :
    loadPair (setFlags s f) d a = mapNext (setFlags · f) (loadPair s d a) := by
  simp only [loadPair, memRead, setFlags_params, setFlags_mem]
  cases accessFault s.params a <;> cases accessFault s.params (a + 4#64) <;> rfl

theorem storeNarrow_setFlags :
    storeNarrow (setFlags s f) a w = mapNext (setFlags · f) (storeNarrow s a w) := by
  simp only [storeNarrow, memWrite, setFlags_params]
  cases accessFault s.params a <;> rfl

theorem storePair_setFlags :
    storePair (setFlags s f) a v = mapNext (setFlags · f) (storePair s a v) := by
  simp only [storePair, memWrite, setFlags_params]
  cases accessFault s.params a <;> simp only [setWord_params, setFlags_params] <;>
    cases accessFault s.params (a + 4#64) <;> rfl

theorem branchIf_setFlags :
    branchIf (setFlags s f) taken off = mapNext (setFlags · f) (branchIf s taken off) := by
  cases taken <;> rfl

end

/-- The flags before an instruction reach its answer by those it reads and those it leaves alone. -/
theorem exec_setFlags {i : Instr} {s : State} {f : Flags} (h : SameReads i f s.flags) :
    exec i (setFlags s f) = mapNext (fun t => setFlags t (flagsAfter i f t.flags)) (exec i s) := by
  cases i with
  | addReg | addImm | multiply | eor | orr | moveWideImm | shiftLeft | shiftRight | addRegFlags
  | addImmFlags | subRegFlags | subImmFlags | cmpReg | cmpImm | andFlags | branchReg | halt => rfl
  | addCarryFlags d n m =>
    have hc : f.c = s.flags.c := h.c rfl
    simp only [exec, execAddCarryFlags, setFlags_flags, hc]
    rfl
  | loadByte | loadHalf => exact loadNarrow_setFlags ..
  | loadWord => exact loadPair_setFlags ..
  | storeByte | storeHalf => exact storeNarrow_setFlags ..
  | storeWord => exact storePair_setFlags ..
  | branchUncond | cmpBranchZero | cmpBranchNonzero => exact branchIf_setFlags ..
  | branchCondEq | branchCondNe =>
    have hz : f.z = s.flags.z := h.z (by simp [Instr.tag])
    simp only [exec, execBranchCondEq, execBranchCondNe, condEq, condNe, setFlags_flags, hz]
    exact branchIf_setFlags ..
  | branchCondGe | branchCondLt =>
    have hn : f.n = s.flags.n := h.n (by simp [Instr.tag])
    simp only [exec, execBranchCondGe, execBranchCondLt, condGe, condLt, setFlags_flags, hn]
    exact branchIf_setFlags ..
  | branchCondGt | branchCondLe =>
    have hn : f.n = s.flags.n := h.n (by simp [Instr.tag])
    have hz : f.z = s.flags.z := h.z (by simp [Instr.tag])
    simp only [exec, execBranchCondGt, execBranchCondLe, condGt, condLe, setFlags_flags, hn, hz]
    exact branchIf_setFlags ..

theorem flags_eq_flagsAfter {i : Instr} {s t : State} (h : exec i s = .next t) :
    t.flags = flagsAfter i s.flags t.flags := by
  have ht := exec_setFlags (i := i) (s := s) ⟨fun _ => rfl, fun _ => rfl, fun _ => rfl⟩
  rw [h, show exec i (setFlags s s.flags) = .next t from h] at ht
  exact congrArg State.flags (Host.Outcome.next.inj ht)

/-! ## The writers (R24) -/

theorem flagsAfter_of_writesNZCV {i : Instr} (h : writesNZCV i = true) (old new : Flags) :
    flagsAfter i old new = new :=
  if_pos h

theorem flagsAfter_of_andFlags {i : Instr} (h : i.tag = .andFlags) (old new : Flags) :
    flagsAfter i old new = { new with c := old.c, v := old.v } := by
  simp [flagsAfter, writesNZCV, h]

theorem flagsAfter_of_no_writer {i : Instr} (h : writesNZCV i = false) (hand : i.tag ≠ .andFlags)
    (old new : Flags) : flagsAfter i old new = old := by
  simp [flagsAfter, h, hand]

/-- A writer of flags reads none but the `C` of `ADD_CARRY_FLAGS`, and completes. -/
theorem exec_setFlags_of_writer {i : Instr} (hw : writesNZCV i = true ∨ i.tag = .andFlags) {s : State}
    {f : Flags} (hc : i.tag = .addCarryFlags → f.c = s.flags.c) :
    ∃ t, exec i s = .next t ∧ exec i (setFlags s f) = .next (setFlags t (flagsAfter i f t.flags)) := by
  have hreads : SameReads i f s.flags := by
    refine ⟨fun hi => absurd hw ?_, fun hi => absurd hw ?_, hc⟩
    all_goals
      simp only [List.mem_cons, List.not_mem_nil, or_false] at hi
      rcases hi with hi | hi | hi | hi <;> simp [writesNZCV, hi]
  have hdata : dataAddress i = none := by
    cases i with
    | storeWord | loadWord | storeByte | loadByte | storeHalf | loadHalf =>
      exact absurd hw (by simp [writesNZCV, Instr.tag])
    | _ => rfl
  obtain ⟨t, ht⟩ := exec_next_of_no_dataAddress hdata s
  exact ⟨t, ht, by rw [exec_setFlags hreads, ht]; rfl⟩

/-- Settles O56: the flags after are `flagsAfter`'s, of which a writer's own do not depend on the old. -/
theorem flagWritersAreExactlyTheListed : Obligations.FlagWritersAreExactlyTheListed := by
  refine ⟨fun i s t hexec => ⟨fun hw hand => ?_, fun hand => ?_⟩,
    fun i s f => ⟨fun hw hc => ?_, fun hand => ?_⟩⟩
  · rw [flags_eq_flagsAfter hexec, flagsAfter_of_no_writer hw hand]
  · rw [flags_eq_flagsAfter hexec, flagsAfter_of_andFlags hand]
    exact ⟨rfl, rfl⟩
  · obtain ⟨t, ht, hu⟩ := exec_setFlags_of_writer (.inl hw) hc
    rw [flagsAfter_of_writesNZCV hw] at hu
    exact ⟨t, _, ht, hu, rfl⟩
  · obtain ⟨t, ht, hu⟩ := exec_setFlags_of_writer (s := s) (f := f) (.inr hand) (by simp [hand])
    rw [flagsAfter_of_andFlags hand] at hu
    exact ⟨t, _, ht, hu, rfl, rfl⟩

/-! ## The readers (R25) -/

section
variable {i : Instr} {s : State} (P Q : Flags → Flags) (hall : P (Q s.flags) = P s.flags)
  (hand : ∀ g : Flags, P { g with c := (Q s.flags).c, v := (Q s.flags).v } =
    P { g with c := s.flags.c, v := s.flags.v })
include hall hand

theorem flagsAfter_congr (g : Flags) : P (flagsAfter i (Q s.flags) g) = P (flagsAfter i s.flags g) := by
  unfold flagsAfter
  split
  · rfl
  · split
    · exact hand g
    · exact hall

/-- Setting by `Q` a flag that an instruction does not read changes nothing of its answer but what `P`
sets again: the instruction keeps that flag or overwrites it. -/
theorem mapNext_exec_setFlags (h : SameReads i (Q s.flags) s.flags) :
    mapNext (fun t => setFlags t (P t.flags)) (exec i (setFlags s (Q s.flags))) =
      mapNext (fun t => setFlags t (P t.flags)) (exec i s) := by
  rw [exec_setFlags h]
  cases hexec : exec i s with
  | next t =>
    have ht : P (flagsAfter i (Q s.flags) t.flags) = P t.flags := by
      rw [flagsAfter_congr P Q hall hand, ← flags_eq_flagsAfter hexec]
    exact congrArg (fun f => Host.Outcome.next (setFlags t f)) ht
  | fault r | refused r => rfl

end

/-- A relative branch answers alike under `g` in two states exactly when the test is the same in both or
the target is `pc + 4`. -/
theorem mapNext_branchIf_ne_iff {g : State → State} {s₁ s₀ : State} {b₁ b₀ : Bool} {off : Dword}
    (hpc : ∀ t, (g t).pc = t.pc) (hg : ∀ p, g (jump s₁ p) = g (jump s₀ p)) (hs : s₁.pc = s₀.pc) :
    mapNext g (branchIf s₁ b₁ off) ≠ mapNext g (branchIf s₀ b₀ off) ↔ off ≠ 4#64 ∧ b₁ ≠ b₀ := by
  have hnext (p q : Dword) : mapNext g (.next (jump s₁ p)) = mapNext g (.next (jump s₀ q)) ↔ p = q := by
    refine ⟨fun h => ?_, fun h => h ▸ congrArg Host.Outcome.next (hg p)⟩
    have h := congrArg State.pc (Host.Outcome.next.inj h)
    rwa [hpc, hpc] at h
  rw [branchIf_eq, branchIf_eq, Ne, hnext, hs]
  cases b₁ <;> cases b₀ <;> simp [eq_comm]

theorem offset19_ne_four_iff (imm19 : BitVec 19) : offset19 imm19 ≠ 4#64 ↔ imm19 ≠ 1#19 := by
  have h4 : (4#64).toInt = 4 := by decide
  have h1 : (1#19).toInt = 1 := by decide
  rw [Ne, Ne, ← BitVec.toInt_inj, ← BitVec.toInt_inj, toInt_offset19, h4, h1]
  omega

section
variable (s : State) (b' b₁ b₀ : Bool) (imm19 : BitVec 19)

/-- Two states that differ in `N` alone tell a branch's test apart. -/
theorem mapNext_putN_branchIf_ne_iff :
    mapNext (putN b') (branchIf (putN true s) b₁ (offset19 imm19)) ≠
      mapNext (putN b') (branchIf (putN false s) b₀ (offset19 imm19)) ↔ imm19 ≠ 1#19 ∧ b₁ ≠ b₀ := by
  rw [← offset19_ne_four_iff]
  exact mapNext_branchIf_ne_iff (fun _ => rfl) (fun _ => rfl) rfl

/-- Two states that differ in `Z` alone tell a branch's test apart. -/
theorem mapNext_putZ_branchIf_ne_iff :
    mapNext (putZ b') (branchIf (putZ true s) b₁ (offset19 imm19)) ≠
      mapNext (putZ b') (branchIf (putZ false s) b₀ (offset19 imm19)) ↔ imm19 ≠ 1#19 ∧ b₁ ≠ b₀ := by
  rw [← offset19_ne_four_iff]
  exact mapNext_branchIf_ne_iff (fun _ => rfl) (fun _ => rfl) rfl

end

theorem addWithCarry_true_ne_false (x y : Dword) :
    (addWithCarry x y true).1 ≠ (addWithCarry x y false).1 := by
  rw [Ne, ← BitVec.toNat_inj, toNat_addWithCarry, toNat_addWithCarry, Bool.toNat_true, Bool.toNat_false]
  omega

/-- Settles O55: an answer depends on the flags by the ones read, which decide a branch or an addition. -/
theorem flagReadersAreExactlyTheListed : Obligations.FlagReadersAreExactlyTheListed := by
  refine ⟨fun i s b b' => ⟨?putV, fun hi => ?putC, fun hi => ?putN, fun hi => ?putZ⟩,
    fun d n m s b' h => ?addCarry,
    fun imm19 s b' => ⟨?signBranches, ?zeroBranches, ?orderBranches⟩⟩
  case putV =>
    exact mapNext_exec_setFlags ({ · with v := b' }) ({ · with v := b }) rfl (fun _ => rfl)
      ⟨fun _ => rfl, fun _ => rfl, fun _ => rfl⟩
  case putC =>
    exact mapNext_exec_setFlags ({ · with c := b' }) ({ · with c := b }) rfl (fun _ => rfl)
      ⟨fun _ => rfl, fun _ => rfl, fun h => absurd h hi⟩
  case putN =>
    exact mapNext_exec_setFlags ({ · with n := b' }) ({ · with n := b }) rfl (fun _ => rfl)
      ⟨fun h => absurd h hi, fun _ => rfl, fun _ => rfl⟩
  case putZ =>
    exact mapNext_exec_setFlags ({ · with z := b' }) ({ · with z := b }) rfl (fun _ => rfl)
      ⟨fun _ => rfl, fun h => absurd h hi, fun _ => rfl⟩
  case addCarry =>
    refine addWithCarry_true_ne_false (readReg s n) (readReg s m) ?_
    simpa [putC] using congrArg (readReg · d) (Host.Outcome.next.inj h)
  case signBranches =>
    refine List.forall_mem_cons.2 ⟨?_, List.forall_mem_singleton.2 ?_⟩
    · exact (mapNext_putN_branchIf_ne_iff ..).trans (and_iff_left (by simp [condGe, putN]))
    · exact (mapNext_putN_branchIf_ne_iff ..).trans (and_iff_left (by simp [condLt, putN]))
  case zeroBranches =>
    refine List.forall_mem_cons.2 ⟨?_, List.forall_mem_singleton.2 ?_⟩
    · exact (mapNext_putZ_branchIf_ne_iff ..).trans (and_iff_left (by simp [condEq, putZ]))
    · exact (mapNext_putZ_branchIf_ne_iff ..).trans (and_iff_left (by simp [condNe, putZ]))
  case orderBranches =>
    refine List.forall_mem_cons.2 ⟨⟨?_, ?_⟩, List.forall_mem_singleton.2 ⟨?_, ?_⟩⟩
    · exact (mapNext_putN_branchIf_ne_iff ..).trans (and_congr_right' (by simp [condGt, putN]))
    · exact (mapNext_putZ_branchIf_ne_iff ..).trans (and_congr_right' (by simp [condGt, putZ]))
    · exact (mapNext_putN_branchIf_ne_iff ..).trans (and_congr_right' (by simp [condLe, putN]))
    · exact (mapNext_putZ_branchIf_ne_iff ..).trans (and_congr_right' (by simp [condLe, putZ]))

end Sys2Proof.Machine
end
